-- ==== Sys2Proof/Word.lean ====
section
/-! DEFINITION. The one width of the machine: a byte (spec 00_scope.md R5, R8).
Instruction pointers, stack positions and sizes are natural numbers (R7), not words. -/

namespace Sys2Proof

/-- An unsigned 8-bit value, `0..255`: an opcode, a code element, a stack element, a stream value (R5). -/
abbrev Byte := BitVec 8

end Sys2Proof
end

