-- ==== Sys2Proof/Syntax.lean ====
section
/-! DEFINITION. The fifteen operations (spec 30_encoding.md R73), one constructor for each row of
spec/opcode_table.json. The three range opcodes carry the immediate of their bit field (R61, R66). -/

namespace Sys2Proof

/-- One instruction: an operation and zero or one immediate (00_scope.md R14). -/
inductive Instr where
  /-- Pop `a`, pop `b`, push `(a + b) mod 256` (R85). -/
  | add
  /-- Pop `a`, pop `b`, push `(a - b) mod 256` (R86). -/
  | subtract
  /-- Pop the dividend, pop the divisor, push the quotient, then the remainder (R87). -/
  | divide
  /-- Pop `a`, pop `b`, push `(a * b) mod 256` (R88). -/
  | multiply
  /-- Take one byte from the input stream and push it (R90). -/
  | read
  /-- Pop a byte and append it to the output stream (R91). -/
  | write
  /-- Pop an offset and add it to `IP` (R100). -/
  | jump
  /-- Pop an offset, push `IP`, add the offset to `IP` (R101). -/
  | call
  /-- Pop a byte and set `IP` to it (R102). -/
  | ret
  /-- Pop an offset, pop `x`, pop `y`; if they are equal add the offset to `IP` (R103). -/
  | cje
  /-- Pop an offset; if the stack is now empty add the offset to `IP` (R104). -/
  | jse
  /-- Pop and discard (R115). -/
  | pop
  /-- Exchange the head and the element at position `index` (R116). -/
  | swap (index : BitVec 5)
  /-- Push a copy of the element at position `offset` (R117). -/
  | load (offset : BitVec 6)
  /-- Push the immediate `value` (R118). -/
  | push (value : BitVec 7)
  deriving DecidableEq, Repr

end Sys2Proof
end

