-- ==== Sys2Proof/WellFormed.lean ====
section
/-! DEFINITION. Which instructions have an encoding (spec 30_encoding.md R61, R64, R73): the immediates of
swap are `1..31` (the byte of index 0 is pop), those of load `0..62` (byte `0x7F` is illegal), those of push
`0..127`. -/

namespace Sys2Proof

/-- The instruction has a byte of its own (R73: "anything else has no encoding"). -/
def Instr.wellFormed : Instr → Bool
  | .add => true
  | .subtract => true
  | .divide => true
  | .multiply => true
  | .read => true
  | .write => true
  | .jump => true
  | .call => true
  | .ret => true
  | .cje => true
  | .jse => true
  | .pop => true
  | .swap index => index != 0
  | .load offset => offset != 63
  | .push _ => true

end Sys2Proof
end

