-- ==== Sys2Proof/Decode.lean ====
section
/-! DEFINITION. The decoder and the encoder, from one opcode table (spec 30_encoding.md R61 to R73).
The table is data, so that a literal can be corrected in one place (93_implementation_defined.md U18, log 13). -/

namespace Sys2Proof

/-- Why a byte is no instruction. -/
inductive DecodeError where
  /-- The byte matches no exact entry and lies in no range (R62 step 3, R68). -/
  | unknownOpcode
  deriving DecidableEq, Repr

/-- The twelve exact opcodes (R63): the whole byte is the opcode and there is no argument. -/
def exactTable : List (Byte × Instr) :=
  [(0x00, .add), (0x01, .subtract), (0x02, .divide), (0x03, .multiply),
   (0x08, .read), (0x09, .write),
   (0x10, .jump), (0x11, .call), (0x12, .ret), (0x14, .cje), (0x18, .jse),
   (0x20, .pop)]

/-- One range entry (R64): the bytes `min..max`, both included, select the operation, whose one argument is
`opcode - min` (R65). -/
structure RangeEntry where
  min : Nat
  max : Nat
  make : Nat → Instr

/-- The three range entries (R64). `0x20` is also an exact opcode, tried first; `0x7F` is in no entry. -/
def rangeTable : List RangeEntry :=
  [{ min := 0x20, max := 0x3F, make := fun n => .swap (BitVec.ofNat 5 n) },
   { min := 0x40, max := 0x7E, make := fun n => .load (BitVec.ofNat 6 n) },
   { min := 0x80, max := 0xFF, make := fun n => .push (BitVec.ofNat 7 n) }]

/-- Step 1 of decoding: the exact entry whose byte is `b` (R62). -/
def matchExact (b : Byte) : List (Byte × Instr) → Option Instr
  | [] => none
  | (opcode, i) :: rest => if b = opcode then some i else matchExact b rest

/-- Step 2 of decoding: the first range that holds `b`, with argument `b - min` (R62, R65). -/
def matchRange (b : Byte) : List RangeEntry → Option Instr
  | [] => none
  | e :: rest =>
    if e.min ≤ b.toNat ∧ b.toNat ≤ e.max then some (e.make (b.toNat - e.min)) else matchRange b rest

/-- `decode(b)` (R62): exact entries first, then ranges, else `UnknownOpcode`. -/
def decode (b : Byte) : Except DecodeError Instr :=
  match matchExact b exactTable with
  | some i => .ok i
  | none =>
    match matchRange b rangeTable with
    | some i => .ok i
    | none => .error .unknownOpcode

/-- The instruction at the front of a byte sequence and what follows it: an instruction is one byte (R60), so
the empty sequence holds none. -/
def decodeBytes : List Byte → Option (Except DecodeError Instr × List Byte)
  | [] => none
  | b :: rest => some (decode b, rest)

/-- The byte of a well-formed instruction (R63, R73): an exact opcode, or the range minimum plus the
immediate. -/
def encode : Instr → Byte
  | .add => 0x00
  | .subtract => 0x01
  | .divide => 0x02
  | .multiply => 0x03
  | .read => 0x08
  | .write => 0x09
  | .jump => 0x10
  | .call => 0x11
  | .ret => 0x12
  | .cje => 0x14
  | .jse => 0x18
  | .pop => 0x20
  | .swap index => BitVec.ofNat 8 (0x20 + index.toNat)
  | .load offset => BitVec.ofNat 8 (0x40 + offset.toNat)
  | .push value => BitVec.ofNat 8 (0x80 + value.toNat)

/-- The first byte of an instruction given as the number `w` of its `nbits` bits, bit 0 the least significant
bit of the first byte; bits above `nbits` are 0. Every instruction of this machine is that one byte (R60). -/
def tableWordByte (nbits w : Nat) : Byte := BitVec.ofNat 8 (w % 2 ^ nbits)

/-- The instruction the decoder reads from the bits `w` of a row of spec/opcode_table.json. -/
def decodeTableWord (nbits w : Nat) : Option Instr :=
  match decode (tableWordByte nbits w) with
  | .ok i => some i
  | .error _ => none

end Sys2Proof
end

