-- ==== Sys2Proof/Config.lean ====
section
/-! DEFINITION. What an implementation fixes (the parameters `STACK_MAX` and `CODE_MAX`), and the free values
of the host's view of a running machine. -/

namespace Sys2Proof

/-- The parameters the spec leaves to an implementation (00_scope.md R6, R7; 92_eei_decisions.md D3, D4).
They are held in `State.cfg`, which nothing changes, so that every statement about all states is a
statement about every choice of them (log 2). -/
structure Config where
  /-- `STACK_MAX`: the most elements the stack holds, or `none` for the architectural unbounded stack. -/
  stackMax : Option Nat
  /-- `CODE_MAX`: the longest loadable code, or `none` for any length. -/
  codeMax : Option Nat
  deriving DecidableEq, Repr

/-- The architectural reading: no bound on the stack and none on the code (R6, R7, D3, D4). -/
def Config.architectural : Config := { stackMax := none, codeMax := none }

/-- Whether a limit that may be absent admits `n`. -/
def Config.admits : Option Nat → Nat → Bool
  | none, _ => true
  | some m, n => decide (n ≤ m)

/-! The values a host reads from the final-state view while the machine is RUNNING: "not defined by this
spec" (46_external_interfaces.md R147), `any value` (93_implementation_defined.md U11). Each is a FREE VALUE
of the read it is applied to (log 9); no step of the machine reads one. -/

/-- Free value: the 3-bit run state shown to the host's `n`-th read, made while RUNNING. -/
opaque Config.shownRunState : Nat → BitVec 3
/-- Free value: the 4-bit fault code shown to the host's `n`-th read, made while RUNNING. -/
opaque Config.shownFault : Nat → BitVec 4
/-- Free value: the instruction pointer shown to the host's `n`-th read, made while RUNNING. -/
opaque Config.shownIP : Nat → Nat
/-- Free value: the stack size shown to the host's `n`-th read, made while RUNNING. -/
opaque Config.shownSize : Nat → Nat
/-- Free value: the stack element at a position, shown to the host's `n`-th read, made while RUNNING. -/
opaque Config.shownElement : Nat → Nat → Byte

end Sys2Proof
end

