-- ==== Sys2Proof/Machine/State.lean ====
section
/-! DEFINITION. The state of the machine as plain data (spec 10_state.md R20 to R33), the fault kinds
(60_exceptions.md R155), the run states (R28), the reasons a step or a host event can stop, and the state
after reset. -/

namespace Sys2Proof.Machine

/-- `RUN_STATE` (10_state.md R28). -/
inductive RunState where
  /-- Reset state: no load accepted yet. -/
  | unloaded
  /-- A load has been accepted; the run has not started. -/
  | ready
  /-- Inside the fetch-decode-execute loop. -/
  | running
  /-- The loop ended because `IP` reached the end of the code: normal termination. -/
  | halted
  /-- A fatal fault ended the run. -/
  | faulted
  deriving DecidableEq, Repr

/-- The fault kinds the `FAULT` register can hold (60_exceptions.md R155). -/
inductive FaultKind where
  /-- The code buffer was written more than once; told to the load's caller, never in `FAULT` (R156, R141). -/
  | memoryPermissionsError
  /-- Pop from an empty stack (R157). -/
  | emptyStack
  /-- Swap or load index past the size (R158). -/
  | indexOutOfBounds
  /-- Push of a value above 255 (R159). -/
  | valueOutOfRange
  /-- The decoder found no matching handler (R160). -/
  | unknownOpcode
  /-- An `IP` assignment outside `[0, LEN]` (R161). -/
  | ipOutOfBounds
  /-- Divide with a zero divisor (R162). -/
  | divisionByZero
  /-- Run with an empty or unset code buffer (R163). -/
  | noCodeLoaded
  /-- The input stream has ended (R164). -/
  | inputEndOfStream
  /-- Push on a full stack, under a finite `STACK_MAX` only (R164). -/
  | stackOverflow
  deriving DecidableEq, Repr

/-- The code buffer: byte `a` stands at offset `a` (20_memory.md R41). A sequence is its own canonical form:
two buffers that read alike are one list (log 1). -/
abbrev Memory := List Byte

/-- Everything the spec gives the machine (10_state.md R33), the streams of its environment (R12, 42_io.md
R92) and the implementation's parameters (R6, R7). -/
structure State where
  /-- `STACK_MAX` and `CODE_MAX`; constant (log 2). -/
  cfg : Config
  /-- `CODE`; `LEN` is its length (R41). -/
  code : Memory
  /-- `CODE_SET` (R27). -/
  codeSet : Bool
  /-- `STACK`, head first (20_memory.md R45). -/
  stack : List Byte
  /-- `IP` (R21). -/
  ip : Nat
  /-- `RUN_STATE` (R28). -/
  runState : RunState
  /-- `FAULT`; `none` is the spec's `None` (R29). -/
  fault : Option FaultKind
  /-- The bytes of `IN` delivered and not yet consumed, next byte first (42_io.md R92, log 3). -/
  input : List Byte
  /-- The environment has signalled that no byte follows those in `input` (46_external_interfaces.md R144). -/
  inputEnded : Bool
  /-- `OUT`: the values written so far, oldest first (42_io.md R92, log 4). -/
  output : List Byte
  deriving DecidableEq, Repr

/-- Why reading the machine from outside can stop. `step` and `exec` never answer one of these: the faults of
the machine itself are states (`FAULT`, 60_exceptions.md R165; log 6). -/
inductive Fault where
  /-- The host's code view was asked for an offset at or past `LEN`, which does not exist (R41, R146). Raised
  by `codeView`. Safe. -/
  | noSuchCodeByte
  /-- The host's final-state view was asked for a stack position at or past `size`, which does not exist
  (R45, R147). Raised by `observeElement`. Safe. -/
  | noSuchStackElement
  deriving DecidableEq, Repr

/-- Why an event has no meaning in the model. -/
inductive Refusal where
  /-- An arm of `exec` that has no meaning yet. Raised by `exec` only; no arm of this model does. Safe. -/
  | notModelled (mnemonic : String)
  /-- A load in FAULTED with `CODE_SET = 0`: "given no meaning by this spec: a model refuses it"
  (45_processor_loop.md R131, 90_conflicts.md C8). Raised by `hostLoad`. Safe. -/
  | loadAfterFailedRun
  /-- A load longer than `CODE_MAX`: "outside the spec (a model refuses it)" (92_eei_decisions.md D4).
  Raised by `hostLoad`. Safe. -/
  | codeTooLong
  /-- An input byte after the end of input was signalled: "no further byte will come" (R148). Raised by
  `hostInput`. Safe. -/
  | inputAfterEnd
  /-- A beat of the load port marked `load_empty` inside a burst: the port table gives an empty load one beat of
  its own (R148, log 14). Raised by `takeBeat`. Safe. -/
  | emptyBeatInBurst
  deriving DecidableEq, Repr

/-- The machine right after reset (10_state.md R33, 70_reset_and_hazards.md R181), in its architectural
configuration, with nothing delivered on the input stream yet (log 2, log 3). -/
def State.reset : State where
  cfg := Config.architectural
  code := []
  codeSet := false
  stack := []
  ip := 0
  runState := .unloaded
  fault := none
  input := []
  inputEnded := false
  output := []

end Sys2Proof.Machine
end

