-- ==== Sys2Proof/Machine/Alu.lean ====
section
/-! DEFINITION. The arithmetic unit (spec 41_arithmetic.md R80 to R84): four stateless functions over two
bytes, computed exactly and then narrowed to 8 bits. -/

namespace Sys2Proof.Machine

/-- `ALU.add(a, b)`: `(a + b) mod 256` (R80). -/
def aluAdd (a b : Byte) : Byte := BitVec.ofNat 8 ((a.toNat + b.toNat) % 256)

/-- `ALU.subtract(a, b)`: `(a - b) mod 256`, the least non-negative residue (R81, 00_scope.md R8). -/
def aluSubtract (a b : Byte) : Byte :=
  BitVec.ofNat 8 (((a.toNat : Int) - (b.toNat : Int)) % 256).toNat

/-- `ALU.multiply(a, b)`: `(a * b) mod 256` (R82). -/
def aluMultiply (a b : Byte) : Byte := BitVec.ofNat 8 ((a.toNat * b.toNat) % 256)

/-- `ALU.divideWithRemainder(dividend, divisor)`: quotient and remainder, unsigned; a zero divisor raises
`DivisionByZero` (R83). -/
def aluDivideWithRemainder (dividend divisor : Byte) : Except FaultKind (Byte × Byte) :=
  if divisor.toNat = 0 then .error .divisionByZero
  else .ok (BitVec.ofNat 8 (dividend.toNat / divisor.toNat), BitVec.ofNat 8 (dividend.toNat % divisor.toNat))

end Sys2Proof.Machine
end

