-- ==== Sys2Proof/Machine/Ops.lean ====
section
/-! DEFINITION. The named operations everything else is built from: the state updates, the stack primitives
(spec 20_memory.md R46 to R50), the code read and write (R42, R44), `setIP` (10_state.md R24), the stream calls
(46_external_interfaces.md R144, R145), and taking a fault (60_exceptions.md R165). -/

namespace Sys2Proof.Machine

/-! ### State updates -/

/-- The state with another stack. -/
def State.withStack (s : State) (stack : List Byte) : State := { s with stack := stack }
/-- The state with another instruction pointer, unchecked: `setIP` is the checked write. -/
def State.withIP (s : State) (ip : Nat) : State := { s with ip := ip }
/-- The state with another rest of input. -/
def State.withInput (s : State) (input : List Byte) : State := { s with input := input }
/-- The state with another record of output. -/
def State.withOutput (s : State) (output : List Byte) : State := { s with output := output }
/-- The state with another run state. -/
def State.withRunState (s : State) (r : RunState) : State := { s with runState := r }

/-- `LEN`, the length of the code buffer (20_memory.md R41). -/
def State.len (s : State) : Nat := s.code.length
/-- `size`, the number of stack elements (R45). -/
def State.size (s : State) : Nat := s.stack.length

/-- The code buffer as (address, byte) pairs: offset `a` holds byte `a` (R41). -/
def Memory.cells (m : Memory) : List Host.Cell := m.zipIdx.map fun p => (p.2, p.1)

/-- The canonical form of the pairs: the addresses are `0 .. LEN-1`, rising, each once. Laws/Memory.lean proves
that every buffer has it (log 1). -/
def Memory.wf (m : Memory) : Bool := m.cells.map Prod.fst == List.range m.length

/-! ### Sub-steps -/

/-- How one sub-step of an instruction ends (00_scope.md R10). The state it carries holds the effect of every
sub-step completed so far: there is no roll-back (60_exceptions.md R168). -/
inductive Result (α : Type) where
  /-- The sub-step is done and gives a value. -/
  | ok (a : α) (s : State)
  /-- The sub-step raises a fault kind. -/
  | raise (k : FaultKind) (s : State)
  /-- The sub-step waits for the environment; nothing has changed since the fetch (42_io.md R93). -/
  | wait (s : State)

/-- The next sub-step, if this one is done; a fault or a wait performs none of the later sub-steps
(R10, R165). -/
def Result.andThen {α β : Type} (r : Result α) (f : α → State → Result β) : Result β :=
  match r with
  | .ok a s => f a s
  | .raise k s => .raise k s
  | .wait s => .wait s

/-- A function of the operands that gives a value or raises a kind, as a sub-step that changes no state. -/
def raiseOr {α : Type} (e : Except FaultKind α) (s : State) : Result α :=
  match e with
  | .ok a => .ok a s
  | .error k => .raise k s

/-! ### Taking a fault -/

/-- FAULT ENTRY (R165): `FAULT <- K`, `RUN_STATE <- FAULTED`. No handler, no vector, no saved program counter,
no mode change; `IP`, `STACK` and the streams stay as the completed sub-steps left them (R168). There is no
return from a fault (R169): only reset leaves FAULTED. -/
def takeFault (k : FaultKind) (s : State) : State :=
  { s with fault := some k, runState := .faulted }

/-- A blocked stream call leaves the between-instruction state as it was (R93, R130): the fetch increment is
taken back, so that the instruction is tried again at the next step (log 5). -/
def awaitStream (s : State) : State := s.withIP (s.ip - 1)

/-- How an instruction ends, once its sub-steps have. -/
def finish (r : Result Unit) : Host.Outcome State Fault Refusal :=
  match r with
  | .ok _ s => .next s
  | .raise k s => .next (takeFault k s)
  | .wait s => .next (awaitStream s)

/-! ### The ByteStack -/

/-- `push(value)` (20_memory.md R46): the value check first, then the capacity check under a finite
`STACK_MAX`, then the new head. -/
def stackPush (value : Nat) (s : State) : Result Unit :=
  if 255 < value then .raise .valueOutOfRange s
  else if s.cfg.stackMax = some s.size then .raise .stackOverflow s
  else .ok () (s.withStack (BitVec.ofNat 8 value :: s.stack))

/-- `pop()` (R47). -/
def stackPop (s : State) : Result Byte :=
  match s.stack with
  | [] => .raise .emptyStack s
  | h :: rest => .ok h (s.withStack rest)

/-- `load(offset)` (R48): the element is read before the push. -/
def stackLoad (offset : Nat) (s : State) : Result Unit :=
  match s.stack[offset]? with
  | none => .raise .indexOutOfBounds s
  | some value => stackPush value.toNat s

/-- `swap(index)` (R49): the bounds check first; index 0 removes and discards the head; any other index
exchanges the head and the element at `index`. -/
def stackSwap (index : Nat) (s : State) : Result Unit :=
  match s.stack, s.stack[index]? with
  | h :: rest, some x =>
    .ok () (s.withStack (if index = 0 then rest else x :: rest.set (index - 1) h))
  | _, _ => .raise .indexOutOfBounds s

/-- `isEmpty()` (R50): true iff `size = 0`. -/
def stackIsEmpty (s : State) : Bool := s.size == 0

/-! ### The code buffer and the instruction pointer -/

/-- `CODE[a]` (R44): a byte for `0 <= a < LEN`; no other offset exists. -/
def codeAt (s : State) (a : Nat) : Option Byte := s.code[a]?

/-- `setCode(bytes)` (R42): write-once. -/
def setCode (bytes : List Byte) (s : State) : Except FaultKind State :=
  if s.codeSet then .error .memoryPermissionsError
  else .ok { s with code := bytes, codeSet := true }

/-- `setIP(v)` for an integer `v` (10_state.md R24): `v = LEN` is legal; above it, or below 0, `IP` keeps its
value. -/
def setIP (v : Int) (s : State) : Result Unit :=
  if v < 0 ∨ (s.len : Int) < v then .raise .ipOutOfBounds s
  else .ok () (s.withIP v.toNat)

/-- The loop guard, the fetch and the fetch increment (45_processor_loop.md R126, R127): the opcode at `IP` and
the state with `IP + 1`, or nothing when the guard `IP < LEN` is false. The increment cannot fault (R129). -/
def fetch (s : State) : Option (Byte × State) :=
  match codeAt s s.ip with
  | none => none
  | some opcode => some (opcode, s.withIP (s.ip + 1))

/-! ### The streams -/

/-- `readByte()` (46_external_interfaces.md R144): the next byte of `IN`, consumed; at the end of the stream
`InputEndOfStream`; with neither, it waits. -/
def readByte (s : State) : Result Byte :=
  match s.input with
  | b :: rest => .ok b (s.withInput rest)
  | [] => if s.inputEnded then .raise .inputEndOfStream s else .wait s

/-- `writeChar(v)` (R145): appends the value to `OUT`; it never fails (log 7). -/
def writeChar (v : Byte) (s : State) : Result Unit :=
  .ok () (s.withOutput (s.output ++ [v]))

end Sys2Proof.Machine
end

