-- ==== Sys2Proof/Machine/Operands.lean ====
section
/-! DEFINITION. The operand forms (spec 10_state.md R20): operands popped from the stack, first popped first;
the immediate of a range opcode; and the two forms of a control-transfer target. -/

namespace Sys2Proof.Machine

/-- Two operands: the old head `a`, then the element under it `b` (41_arithmetic.md, opening words). -/
def popTwo (s : State) : Result (Byte × Byte) :=
  (stackPop s).andThen fun a s =>
  (stackPop s).andThen fun b s =>
  .ok (a, b) s

/-- Three operands in the order they are popped (43_control.md R103). -/
def popThree (s : State) : Result (Byte × Byte × Byte) :=
  (stackPop s).andThen fun a s =>
  (popTwo s).andThen fun p s =>
  .ok (a, p.1, p.2) s

/-- The immediate of a range opcode: unsigned, not scaled, not sign-extended (30_encoding.md R65). -/
def immediate {w : Nat} (field : BitVec w) : Nat := field.toNat

/-- A relative target: `IP + offset` with the offset zero-extended, computed exactly
(43_control.md R105, 00_scope.md R7). -/
def relativeTarget (offset : Byte) (s : State) : Int := (s.ip : Int) + (offset.toNat : Int)

/-- An absolute target: the byte, zero-extended (R102). -/
def absoluteTarget (value : Byte) : Int := (value.toNat : Int)

end Sys2Proof.Machine
end

