-- ==== Sys2Proof/Machine/Arithmetic.lean ====
section
/-! DEFINITION. The arithmetic instructions (spec 41_arithmetic.md R85 to R88): pop two bytes, apply one
function of the ALU, push the result or results. -/

namespace Sys2Proof.Machine

/-- The shape of add, subtract and multiply: `[a, b, rest] -> [f a b, rest]`. -/
def binaryOperation (f : Byte → Byte → Byte) (s : State) : Host.Outcome State Fault Refusal :=
  finish <|
    (popTwo s).andThen fun p s =>
    stackPush (f p.1 p.2).toNat s

/-- add (R85). -/
def execAdd (s : State) : Host.Outcome State Fault Refusal := binaryOperation aluAdd s

/-- subtract (R86): the old head minus the element under it. -/
def execSubtract (s : State) : Host.Outcome State Fault Refusal := binaryOperation aluSubtract s

/-- multiply (R88). -/
def execMultiply (s : State) : Host.Outcome State Fault Refusal := binaryOperation aluMultiply s

/-- divide (R87): the dividend is the old head, the divisor the element under it; the quotient is pushed first
and the remainder ends up on top. -/
def execDivide (s : State) : Host.Outcome State Fault Refusal :=
  finish <|
    (popTwo s).andThen fun p s =>
    (raiseOr (aluDivideWithRemainder p.1 p.2) s).andThen fun qr s =>
    (stackPush qr.1.toNat s).andThen fun _ s =>
    stackPush qr.2.toNat s

end Sys2Proof.Machine
end

