-- ==== Sys2Proof/Machine/Flags.lean ====
section
/-! DEFINITION. The machine has no flags, condition codes or predicate registers (spec 10_state.md R26). What
stands in their place are the tests the two conditional operations make themselves. -/

namespace Sys2Proof.Machine

/-- The test of cje: equality of the two values it popped (43_control.md R103). -/
def cjeTaken (x y : Byte) : Bool := x == y

/-- The test of jse: the stack is empty after its pop (R104). -/
def jseTaken (s : State) : Bool := stackIsEmpty s

end Sys2Proof.Machine
end

