-- ==== Sys2Proof/Machine/Control.lean ====
section
/-! DEFINITION. The control-transfer instructions (spec 43_control.md R100 to R107). `IP` on entry is the
post-increment value, and every write of it goes through `setIP`. -/

namespace Sys2Proof.Machine

/-- jump (R100). -/
def execJump (s : State) : Host.Outcome State Fault Refusal :=
  finish <|
    (stackPop s).andThen fun offset s =>
    setIP (relativeTarget offset s) s

/-- call (R101): the return address is `IP`, already post-increment; above 255 its push raises
`ValueOutOfRange`, before the target is tested. -/
def execCall (s : State) : Host.Outcome State Fault Refusal :=
  finish <|
    (stackPop s).andThen fun offset s =>
    (stackPush s.ip s).andThen fun _ s =>
    setIP (relativeTarget offset s) s

/-- ret (R102): an absolute transfer to the popped byte. -/
def execRet (s : State) : Host.Outcome State Fault Refusal :=
  finish <|
    (stackPop s).andThen fun value s =>
    setIP (absoluteTarget value) s

/-- cje (R103): all three operands are popped unconditionally; the target is tested only when taken. -/
def execCje (s : State) : Host.Outcome State Fault Refusal :=
  finish <|
    (popThree s).andThen fun p s =>
    if cjeTaken p.2.1 p.2.2 then setIP (relativeTarget p.1 s) s else .ok () s

/-- jse (R104): taken exactly when the offset was the only element. -/
def execJse (s : State) : Host.Outcome State Fault Refusal :=
  finish <|
    (stackPop s).andThen fun offset s =>
    if jseTaken s then setIP (relativeTarget offset s) s else .ok () s

end Sys2Proof.Machine
end

