-- ==== Sys2Proof/Machine/InputOutput.lean ====
section
/-! DEFINITION. The input and output instructions (spec 42_io.md R90, R91). -/

namespace Sys2Proof.Machine

/-- read (R90): one byte of `IN`, pushed as it is. It waits while `IN` has neither a byte nor an end. -/
def execRead (s : State) : Host.Outcome State Fault Refusal :=
  finish <|
    (readByte s).andThen fun v s =>
    stackPush v.toNat s

/-- write (R91): the popped byte is appended to `OUT`. -/
def execWrite (s : State) : Host.Outcome State Fault Refusal :=
  finish <|
    (stackPop s).andThen fun v s =>
    writeChar v s

end Sys2Proof.Machine
end

