-- ==== Sys2Proof/Machine/Stack.lean ====
section
/-! DEFINITION. The stack instructions (spec 44_stack.md R115 to R118): each calls one primitive of the
ByteStack. -/

namespace Sys2Proof.Machine

/-- pop (R115): the popped byte is discarded. -/
def execPop (s : State) : Host.Outcome State Fault Refusal :=
  finish <|
    (stackPop s).andThen fun _ s =>
    .ok () s

/-- swap(index) (R116). -/
def execSwap (index : BitVec 5) (s : State) : Host.Outcome State Fault Refusal :=
  finish (stackSwap (immediate index) s)

/-- load(offset) (R117). -/
def execLoad (offset : BitVec 6) (s : State) : Host.Outcome State Fault Refusal :=
  finish (stackLoad (immediate offset) s)

/-- push(value) (R118). -/
def execPush (value : BitVec 7) (s : State) : Host.Outcome State Fault Refusal :=
  finish (stackPush (immediate value) s)

end Sys2Proof.Machine
end

