-- ==== Sys2Proof/Machine/Dispatch.lean ====
section
/-! DEFINITION. The dispatch of spec 45_processor_loop.md R128: one arm for each operation, each a direct call of
its meaning. The state is the one after the fetch increment (R126). -/

namespace Sys2Proof.Machine

/-- The execute phase (R128). -/
def exec (i : Instr) (s : State) : Host.Outcome State Fault Refusal :=
  match i with
  | .add => Sys2Proof.Machine.execAdd s
  | .subtract => Sys2Proof.Machine.execSubtract s
  | .divide => Sys2Proof.Machine.execDivide s
  | .multiply => Sys2Proof.Machine.execMultiply s
  | .read => Sys2Proof.Machine.execRead s
  | .write => Sys2Proof.Machine.execWrite s
  | .jump => Sys2Proof.Machine.execJump s
  | .call => Sys2Proof.Machine.execCall s
  | .ret => Sys2Proof.Machine.execRet s
  | .cje => Sys2Proof.Machine.execCje s
  | .jse => Sys2Proof.Machine.execJse s
  | .pop => Sys2Proof.Machine.execPop s
  | .swap index => Sys2Proof.Machine.execSwap index s
  | .load offset => Sys2Proof.Machine.execLoad offset s
  | .push value => Sys2Proof.Machine.execPush value s

end Sys2Proof.Machine
end

