-- ==== Sys2Proof/Machine/Processor.lean ====
section
/-! DEFINITION. The Processor's loop (spec 45_processor_loop.md R126, R127, R131): one iteration, the guard, and
what a machine that is not running does. -/

namespace Sys2Proof.Machine

/-- Decode and execute (R126): an illegal byte raises `UnknownOpcode` after the fetch increment and before any
stack access (30_encoding.md R68). -/
def decodeAndExecute (opcode : Byte) (s : State) : Host.Outcome State Fault Refusal :=
  match decode opcode with
  | .error .unknownOpcode => .next (takeFault .unknownOpcode s)
  | .ok i => exec i s

/-- The loop of a RUNNING machine (R127): an iteration while the guard is true, else normal termination. -/
def loopStep (s : State) : Host.Outcome State Fault Refusal :=
  match fetch s with
  | none => .next (s.withRunState .halted)
  | some (opcode, s') => decodeAndExecute opcode s'

/-- One step of the machine when no host event arrives (R131): a RUNNING machine takes its loop's next step;
an idle or an ended one stays as it is until the host acts (60_exceptions.md R172; log 6). -/
def processorStep (s : State) : Host.Outcome State Fault Refusal :=
  match s.runState with
  | .unloaded => .next s
  | .ready => .next s
  | .running => loopStep s
  | .halted => .next s
  | .faulted => .next s

/-- A state whose next step fetches the byte `b`: `b` stands at `IP`, the code counts as loaded and the run as
under way. Where `IP` lies past the end of the code the gap is filled with zeros (log 12). -/
def placeInstruction (s : State) (b : Byte) : State :=
  { s with
    code := s.code.take s.ip ++ List.replicate (s.ip - s.code.length) 0 ++ [b] ++ s.code.drop (s.ip + 1)
    codeSet := true
    runState := .running }

end Sys2Proof.Machine
end

