-- ==== Sys2Proof/Machine/Step.lean ====
section
/-! DEFINITION. One step of the machine, and the placing of an instruction where the next step fetches it. -/

namespace Sys2Proof.Machine

/-- One step (spec 45_processor_loop.md R126, R127, R131). -/
def step : State → Host.Outcome State Fault Refusal := processorStep

/-- The state with the instruction of bits `w` where `step` fetches next, loaded and running: it stands for the
host's load and run of a program that holds it (log 8). -/
def State.withFetchWord (s : State) (nbits w : Nat) : State :=
  placeInstruction s (tableWordByte nbits w)

end Sys2Proof.Machine
end

