-- ==== Sys2Proof/Machine/Listing.lean ====
section
/-! DEFINITION. The assembly notation (spec 30_encoding.md R72, R73), which is the disassembly line: for each byte
`index: name` or `index: name(n)`, with `n` in decimal, and `?? 0xNN` for an illegal byte. -/

namespace Sys2Proof

/-- The operation's name, as the spec spells it (R73). -/
def Instr.name : Instr → String
  | .add => "add"
  | .subtract => "subtract"
  | .divide => "divide"
  | .multiply => "multiply"
  | .read => "read"
  | .write => "write"
  | .jump => "jump"
  | .call => "call"
  | .ret => "ret"
  | .cje => "cje"
  | .jse => "jse"
  | .pop => "pop"
  | .swap _ => "swap"
  | .load _ => "load"
  | .push _ => "push"

/-- The argument, present for the range opcodes only (R61, R72). -/
def Instr.argument : Instr → Option Nat
  | .add => none
  | .subtract => none
  | .divide => none
  | .multiply => none
  | .read => none
  | .write => none
  | .jump => none
  | .call => none
  | .ret => none
  | .cje => none
  | .jse => none
  | .pop => none
  | .swap index => some index.toNat
  | .load offset => some offset.toNat
  | .push value => some value.toNat

/-- One instruction in the notation. -/
def Instr.text (i : Instr) : String :=
  match i.argument with
  | none => i.name
  | some n => i.name ++ "(" ++ toString n ++ ")"

/-- One hexadecimal digit. -/
def hexDigit (n : Nat) : String :=
  ["0", "1", "2", "3", "4", "5", "6", "7", "8", "9", "A", "B", "C", "D", "E", "F"].getD n "?"

/-- One byte in the notation, legal or not. -/
def byteText (b : Byte) : String :=
  match decode b with
  | .ok i => i.text
  | .error .unknownOpcode => "?? 0x" ++ hexDigit (b.toNat / 16) ++ hexDigit (b.toNat % 16)

/-- The listing of a code buffer from the offset `index` on, one line a byte. -/
def listingFrom (index : Nat) : List Byte → List String
  | [] => []
  | b :: rest => (toString index ++ ": " ++ byteText b) :: listingFrom (index + 1) rest

/-- The listing of a code buffer (R72). -/
def listing (code : List Byte) : List String := listingFrom 0 code

/-- To assemble (R73): the byte of a name and its argument; anything else has no encoding. -/
def assemble (name : String) (argument : Option Nat) : Option Byte :=
  match argument with
  | none => (exactTable.find? fun e => e.2.name == name).map (·.1)
  | some n =>
    if name = "swap" ∧ 1 ≤ n ∧ n ≤ 31 then some (BitVec.ofNat 8 (0x20 + n))
    else if name = "load" ∧ n ≤ 62 then some (BitVec.ofNat 8 (0x40 + n))
    else if name = "push" ∧ n ≤ 127 then some (BitVec.ofNat 8 (0x80 + n))
    else none

end Sys2Proof
end

