-- ==== Sys2Proof/Machine/Interface.lean ====
section
/-! DEFINITION. What the outside can do to the machine between two steps, and what it can read of it (spec
46_external_interfaces.md R140 to R147, 45_processor_loop.md R131, 70_reset_and_hazards.md R181). -/

namespace Sys2Proof.Machine

/-- An event from outside (R140, R149; reset: 70_reset_and_hazards.md R180). -/
inductive HostEvent where
  /-- The host loads a byte sequence (R141). -/
  | load (bytes : List Byte)
  /-- The host starts the run (R142). -/
  | run
  /-- The host resets the machine (70_reset_and_hazards.md R181). -/
  | reset
  /-- The environment delivers one input byte (R144). -/
  | inputByte (b : Byte)
  /-- The environment signals the end of the input stream (R144). -/
  | inputEnd
  deriving DecidableEq, Repr

/-- What the event's sender is told at once. -/
inductive HostReply where
  /-- The event was taken. -/
  | done
  /-- The load was refused with this kind, which `FAULT` does not record (R141). -/
  | loadRefused (k : FaultKind)
  deriving DecidableEq, Repr

/-- The answer to an event: a reply and the state after it, or a refusal where the spec gives it no meaning. -/
abbrev HostAnswer := Host.Outcome (HostReply × State) Fault Refusal

/-- The first load of a fresh machine (20_memory.md R42; 92_eei_decisions.md D4 for `CODE_MAX`). -/
def acceptLoad (bytes : List Byte) (s : State) : HostAnswer :=
  match setCode bytes s with
  | .error k => .next (.loadRefused k, s)
  | .ok s' =>
    if Config.admits s.cfg.codeMax bytes.length then .next (.done, s'.withRunState .ready)
    else .refused .codeTooLong

/-- load (R141, 45_processor_loop.md R131): accepted once; a refused load changes no state and does not disturb
a run. -/
def hostLoad (bytes : List Byte) (s : State) : HostAnswer :=
  match s.runState with
  | .unloaded => acceptLoad bytes s
  | .ready => .next (.loadRefused .memoryPermissionsError, s)
  | .running => .next (.loadRefused .memoryPermissionsError, s)
  | .halted =>
    if s.codeSet then .next (.loadRefused .memoryPermissionsError, s) else .refused .loadAfterFailedRun
  | .faulted =>
    if s.codeSet then .next (.loadRefused .memoryPermissionsError, s) else .refused .loadAfterFailedRun

/-- The start of a run (45_processor_loop.md R125): with no code it fails at once and fetches nothing. `IP` holds
0 from reset and is not written (log 11). -/
def startRun (s : State) : State :=
  if s.len = 0 then takeFault .noCodeLoaded s else s.withRunState .running

/-- run (R142, 45_processor_loop.md R131): one-shot; without effect once a run has started. -/
def hostRun (s : State) : State :=
  match s.runState with
  | .unloaded => startRun s
  | .ready => startRun s
  | .running => s
  | .halted => s
  | .faulted => s

/-- reset (70_reset_and_hazards.md R181): every piece of the CORE's state takes its reset value and the record of
output starts again; the input stream is the environment's and the parameters are the implementation's. -/
def hostReset (s : State) : State :=
  { State.reset with cfg := s.cfg, input := s.input, inputEnded := s.inputEnded }

/-- One byte delivered on the input stream, behind those already delivered (R144, 42_io.md R92). -/
def hostInput (b : Byte) (s : State) : HostAnswer :=
  if s.inputEnded then .refused .inputAfterEnd else .next (.done, s.withInput (s.input ++ [b]))

/-- The end of the input stream signalled (R144). -/
def hostInputEnd (s : State) : State := { s with inputEnded := true }

/-- One event from outside, between two steps of the machine (45_processor_loop.md R131). -/
def hostEvent (e : HostEvent) (s : State) : HostAnswer :=
  match e with
  | .load bytes => hostLoad bytes s
  | .run => .next (.done, hostRun s)
  | .reset => .next (.done, hostReset s)
  | .inputByte b => hostInput b s
  | .inputEnd => .next (.done, hostInputEnd s)

/-! ### Observation -/

/-- How a run ended (R142, 45_processor_loop.md R132). -/
inductive RunOutcome where
  /-- Normal termination; there is no result value. -/
  | terminated
  /-- Ended by a fault of this kind. -/
  | failed (k : FaultKind)
  deriving DecidableEq, Repr

/-- The outcome a run returns to the host, once it has ended (R142). -/
def runOutcome (s : State) : Option RunOutcome :=
  match s.runState with
  | .halted => some .terminated
  | .faulted => s.fault.map .failed
  | .unloaded => none
  | .ready => none
  | .running => none

/-- The code view (R146): `CODE[a]` for `a < LEN`, at any time. -/
def codeView (a : Nat) (s : State) : Except Fault Byte :=
  match codeAt s a with
  | some b => .ok b
  | none => .error .noSuchCodeByte

/-- The 3-bit encoding of `RUN_STATE` (10_state.md R28). -/
def runStateCode : RunState → BitVec 3
  | .unloaded => 0
  | .ready => 1
  | .running => 2
  | .halted => 3
  | .faulted => 4

/-- The 4-bit encoding of `FAULT` (60_exceptions.md R155). -/
def faultCode : Option FaultKind → BitVec 4
  | none => 0
  | some .memoryPermissionsError => 1
  | some .emptyStack => 2
  | some .indexOutOfBounds => 3
  | some .valueOutOfRange => 4
  | some .unknownOpcode => 5
  | some .ipOutOfBounds => 6
  | some .divisionByZero => 7
  | some .noCodeLoaded => 8
  | some .inputEndOfStream => 9
  | some .stackOverflow => 10

/-! The final-state view (R147). The argument `n` numbers the host's reads, so that the value read while
RUNNING, which the spec does not define, is free at every read (log 9). A read has no effect. -/

/-- The host's `n`-th read, of `RUN_STATE`. -/
def observeRunState (n : Nat) (s : State) : BitVec 3 :=
  if s.runState = .running then Config.shownRunState n else runStateCode s.runState

/-- The host's `n`-th read, of `FAULT`. -/
def observeFault (n : Nat) (s : State) : BitVec 4 :=
  if s.runState = .running then Config.shownFault n else faultCode s.fault

/-- The host's `n`-th read, of `IP`. -/
def observeIP (n : Nat) (s : State) : Nat :=
  if s.runState = .running then Config.shownIP n else s.ip

/-- The host's `n`-th read, of `size`. -/
def observeSize (n : Nat) (s : State) : Nat :=
  if s.runState = .running then Config.shownSize n else s.size

/-- The host's `n`-th read, of `STACK[i]`. -/
def observeElement (n i : Nat) (s : State) : Except Fault Byte :=
  if s.runState = .running then .ok (Config.shownElement n i)
  else
    match s.stack[i]? with
    | some b => .ok b
    | none => .error .noSuchStackElement

end Sys2Proof.Machine
end

