-- ==== Sys2Proof/Machine/Ports.lean ====
section
/-! DEFINITION. The port-level rendering of spec 46_external_interfaces.md R148: every port of its table, by name,
the handshakes between them, and one cycle of a machine whose environment is its pins. The ports are the spec's
own and without timing; what their table leaves open is log 14. No instruction depends on this file. -/

namespace Sys2Proof.Machine

/-! ### The pins -/

/-- The input pins of the load handshake, one beat of the load burst. -/
structure LoadBeat where
  /-- `load_valid`: the host presents a beat. -/
  valid : Bool
  /-- `load_data`: the code byte; without meaning on an empty beat. -/
  data : Byte
  /-- `load_last`: the last byte of the burst, at which the load takes effect. -/
  last : Bool
  /-- `load_empty`: a load of the empty sequence, one beat that carries no data byte and is also the last. -/
  empty : Bool
  deriving DecidableEq, Repr

/-- All input pins, as they stand in one cycle. -/
structure PortInputs where
  /-- `rst`: all state takes its reset value (70_reset_and_hazards.md R181). -/
  rst : Bool
  /-- `load_valid`, `load_data`, `load_last`, `load_empty`. -/
  load : LoadBeat
  /-- `run`: the start command. -/
  run : Bool
  /-- `in_valid`: the environment presents an input byte. -/
  inValid : Bool
  /-- `in_data`: the input byte. -/
  inData : Byte
  /-- `in_eos`: the input stream has ended, no further byte will come. -/
  inEos : Bool
  /-- `out_ready`: the environment accepts an output value. -/
  outReady : Bool
  /-- `dbg_addr`: the offset the code view shows. -/
  dbgAddr : Nat
  /-- `dbg_sidx`: the stack position the final-state view shows. -/
  dbgSidx : Nat
  deriving DecidableEq, Repr

/-- The machine behind its ports: the CORE and what the load port holds between two beats. -/
structure PortState where
  /-- The CORE. The input stream in it is what the pins last showed. -/
  core : State
  /-- The bytes of a load burst whose last beat has not come. -/
  burst : List Byte
  /-- Whether the last load to take effect was refused; reset clears it (log 14). -/
  loadErr : Bool
  deriving DecidableEq, Repr

/-! ### The instruction at the ports -/

/-- The instruction a RUNNING machine executes next, if the guard is true and its byte is legal. -/
def currentInstr (s : State) : Option Instr :=
  match s.runState, codeAt s s.ip with
  | .running, some opcode =>
    match decode opcode with
    | .ok i => some i
    | .error _ => none
  | _, _ => none

/-- A read instruction is blocked: `IN` has neither a byte nor an end (42_io.md R93). -/
def readWaiting (s : State) : Bool :=
  currentInstr s == some .read && s.input.isEmpty && !s.inputEnded

/-! ### The output pins

Each is a function of the state at the start of the cycle and of `rst`: while `rst` is raised no handshake is ready
and no value is presented, since the cycle is the reset alone (log 14). -/

/-- `load_ready`: the load port takes a beat in every state, since a load is answered in every state, accepted or
refused (R141, log 14). -/
def portLoadReady (p : PortInputs) : Bool := !p.rst

/-- `load_err`: the load was refused with `MemoryPermissionsError`. -/
def portLoadErr (reply : HostReply) : Bool :=
  match reply with
  | .loadRefused _ => true
  | .done => false

/-- `in_ready`: raised only while a read instruction waits for its byte. It does not look at `in_valid`. -/
def portInReady (p : PortInputs) (s : State) : Bool := !p.rst && currentInstr s == some .read

/-- `out_valid` and `out_data`: the value a write instruction presents. -/
def portOut (p : PortInputs) (s : State) : Option Byte :=
  if p.rst = false ∧ currentInstr s = some .write then s.stack.head? else none

/-- `out_valid`: raised only while a write instruction presents its value. -/
def portOutValid (p : PortInputs) (s : State) : Bool := (portOut p s).isSome

/-- All output pins. -/
structure PortOutputs where
  /-- `load_ready`. -/
  loadReady : Bool
  /-- `load_err`. -/
  loadErr : Bool
  /-- `state`: `RUN_STATE` in the encoding of 10_state.md R28. -/
  state : BitVec 3
  /-- `fault`: `FAULT` in the encoding of 60_exceptions.md R155. -/
  fault : BitVec 4
  /-- `in_ready`. -/
  inReady : Bool
  /-- `out_valid`. -/
  outValid : Bool
  /-- `out_data`, while `out_valid` is raised. -/
  outData : Option Byte
  /-- `dbg_code = CODE[dbg_addr]`, where that offset exists. -/
  dbgCode : Except Fault Byte
  /-- `dbg_ip`. -/
  dbgIp : Nat
  /-- `dbg_size`. -/
  dbgSize : Nat
  /-- `dbg_sdata = STACK[dbg_sidx]`, where that position exists. -/
  dbgSdata : Except Fault Byte

/-- The output pins of a cycle that begins in `q`; those of the final-state view are the host's `n`-th reads (R147, log 9). -/
def portOutputs (n : Nat) (p : PortInputs) (q : PortState) : PortOutputs where
  loadReady := portLoadReady p
  loadErr := q.loadErr
  state := observeRunState n q.core
  fault := observeFault n q.core
  inReady := portInReady p q.core
  outValid := portOutValid p q.core
  outData := portOut p q.core
  dbgCode := codeView p.dbgAddr q.core
  dbgIp := observeIP n q.core
  dbgSize := observeSize n q.core
  dbgSdata := observeElement n p.dbgSidx q.core

/-! ### The handshakes -/

/-- The load of a complete burst: one load, atomic at the last beat. -/
def portLoad (bytes : List Byte) (q : PortState) : Host.Outcome PortState Fault Refusal :=
  match hostLoad bytes q.core with
  | .next (reply, s) => .next { core := s, burst := [], loadErr := portLoadErr reply }
  | .fault f => .fault f
  | .refused r => .refused r

/-- What a beat that is taken does: the load takes effect at the last beat and before that not at all; an empty beat
inside a burst has no meaning (log 14). -/
def takeBeat (beat : LoadBeat) (q : PortState) : Host.Outcome PortState Fault Refusal :=
  if beat.empty then
    if q.burst.isEmpty then portLoad [] q else .refused .emptyBeatInBurst
  else if beat.last then portLoad (q.burst ++ [beat.data]) q
  else .next { q with burst := q.burst ++ [beat.data] }

/-- The load handshake: a beat is taken when `load_valid` and `load_ready` are both 1. -/
def portBeat (p : PortInputs) (q : PortState) : Host.Outcome PortState Fault Refusal :=
  if p.load.valid && portLoadReady p then takeBeat p.load q else .next q

/-- The bytes the pins offer: one while `in_valid` is 1. -/
def offeredInput (p : PortInputs) : List Byte := if p.inValid then [p.inData] else []

/-- The machine with the input stream the pins show. -/
def offerInput (p : PortInputs) (s : State) : State :=
  { s with input := offeredInput p, inputEnded := p.inEos }

/-- The Processor's step at the ports. The offered byte is consumed when `in_valid` and `in_ready` are both 1; a
write whose value is not accepted waits, and no state of the CORE changes (42_io.md R93). -/
def portStep (p : PortInputs) (s : State) : Host.Outcome State Fault Refusal :=
  if portOutValid p s && !p.outReady then .next (offerInput p s) else step (offerInput p s)

/-- The `run` pin. -/
def portRun (p : PortInputs) (s : State) : State := if p.run then hostRun s else s

/-- One cycle: `rst` alone if it is raised, else the Processor's step, a load beat and the `run` command, in this order
(log 14). The step comes first, so that it runs the instruction the output pins of the cycle show, and a run that the
cycle starts takes its first step in the next one. -/
def portCycle (p : PortInputs) (q : PortState) : Host.Outcome PortState Fault Refusal :=
  if p.rst then .next { core := offerInput p (hostReset q.core), burst := [], loadErr := false }
  else
    match portStep p q.core with
    | .fault f => .fault f
    | .refused r => .refused r
    | .next s =>
      match portBeat p { q with core := s } with
      | .fault f => .fault f
      | .refused r => .refused r
      | .next q' => .next { q' with core := portRun p q'.core }

end Sys2Proof.Machine
end

