-- ==== Sys2Proof/Safety.lean ====
section
/-! DEFINITION. The terms claims use: what a well-formed state is (the invariants the spec states), what a run
that has ended or that waits is, and the faulted state of spec 60_exceptions.md R165 written out. -/

namespace Sys2Proof.Machine

/-- The stack is within a finite `STACK_MAX` (00_scope.md R7, 20_memory.md R46). -/
abbrev StackFits (s : State) : Prop := Config.admits s.cfg.stackMax s.stack.length = true

/-- The code is within a finite `CODE_MAX` (00_scope.md R6). -/
abbrev CodeFits (s : State) : Prop := Config.admits s.cfg.codeMax s.code.length = true

/-- One more element may be pushed: there is no `STACK_MAX`, or `size` is not `STACK_MAX` (20_memory.md R46). -/
abbrev HasRoom (s : State) : Prop := s.cfg.stackMax ≠ some s.stack.length

/-- What `RUN_STATE` says of the rest of the state (45_processor_loop.md R125, R131, R132). -/
def RunStateAgrees (s : State) : Prop :=
  match s.runState with
  | .unloaded => s.codeSet = false ∧ s.ip = 0 ∧ s.stack = [] ∧ s.output = [] ∧ s.fault = none
  | .ready => s.codeSet = true ∧ s.ip = 0 ∧ s.stack = [] ∧ s.output = [] ∧ s.fault = none
  | .running => s.codeSet = true ∧ 0 < s.len ∧ s.fault = none
  | .halted => s.codeSet = true ∧ 0 < s.len ∧ s.ip = s.len ∧ s.fault = none
  | .faulted =>
    ∃ k, s.fault = some k ∧ k ≠ .memoryPermissionsError ∧
      (k = .noCodeLoaded ↔ s.len = 0) ∧ (s.codeSet = false → s.len = 0) ∧
      (k = .stackOverflow → s.cfg.stackMax ≠ none)

/-- The invariant of the machine: what holds between two instructions of every machine started by reset. -/
structure Inv (s : State) : Prop where
  /-- `0 <= IP <= LEN` (10_state.md R22). -/
  ip_le_len : s.ip ≤ s.len
  /-- An unset code buffer is empty (10_state.md R33, 20_memory.md R41). -/
  unset_empty : s.codeSet = false → s.code = []
  /-- The stack is within a finite `STACK_MAX`. -/
  stack_fits : StackFits s
  /-- The code is within a finite `CODE_MAX`. -/
  code_fits : CodeFits s
  /-- `RUN_STATE` and the rest of the state agree. -/
  run_state : RunStateAgrees s

/-- The run has ended (45_processor_loop.md R132). -/
abbrev Ended (s : State) : Prop := s.runState = .halted ∨ s.runState = .faulted

/-- The run has not failed: "a claim that a program runs correctly takes `FAULT == None` as part of its
postcondition" (60_exceptions.md R165). -/
abbrev Safe (s : State) : Prop := s.fault = none

/-- The state after a fault of kind `k` that leaves the stack `stack`, everything else as in `s`: R165's fault
entry written out. -/
abbrev faultedWith (k : FaultKind) (stack : List Byte) (s : State) : State :=
  { s with stack := stack, fault := some k, runState := .faulted }

/-- The fault kinds an operation can raise, in the order it tests for them (60_exceptions.md R167). -/
def raisable : Instr → List FaultKind
  | .add => [.emptyStack]
  | .subtract => [.emptyStack]
  | .divide => [.emptyStack, .divisionByZero]
  | .multiply => [.emptyStack]
  | .read => [.inputEndOfStream, .stackOverflow]
  | .write => [.emptyStack]
  | .jump => [.emptyStack, .ipOutOfBounds]
  | .call => [.emptyStack, .valueOutOfRange, .ipOutOfBounds]
  | .ret => [.emptyStack, .ipOutOfBounds]
  | .cje => [.emptyStack, .ipOutOfBounds]
  | .jse => [.emptyStack, .ipOutOfBounds]
  | .pop => [.emptyStack]
  | .swap _ => [.indexOutOfBounds]
  | .load _ => [.indexOutOfBounds, .stackOverflow]
  | .push _ => [.stackOverflow]

/-- The fault kinds with their numbers, as 60_exceptions.md R155 lists them. -/
def faultNumbers : List (FaultKind × BitVec 4) :=
  [(.memoryPermissionsError, 1), (.emptyStack, 2), (.indexOutOfBounds, 3), (.valueOutOfRange, 4),
   (.unknownOpcode, 5), (.ipOutOfBounds, 6), (.divisionByZero, 7), (.noCodeLoaded, 8),
   (.inputEndOfStream, 9), (.stackOverflow, 10)]

/-- The net effect of an operation that completes on the number of stack elements (20_memory.md R51). Index 0 of
swap, which no byte encodes, discards the head (R49). -/
def sizeChange : Instr → Int
  | .add => -1
  | .subtract => -1
  | .divide => 0
  | .multiply => -1
  | .read => 1
  | .write => -1
  | .jump => -1
  | .call => 0
  | .ret => -1
  | .cje => -3
  | .jse => -1
  | .pop => -1
  | .swap index => if index = 0 then -1 else 0
  | .load _ => 1
  | .push _ => 1

/-- How many elements from the head down an operation may remove or change; the ones below stay where they are,
counted from the bottom of the stack. -/
def reach : Instr → Nat
  | .add => 2
  | .subtract => 2
  | .divide => 2
  | .multiply => 2
  | .read => 0
  | .write => 1
  | .jump => 1
  | .call => 1
  | .ret => 1
  | .cje => 3
  | .jse => 1
  | .pop => 1
  | .swap index => index.toNat + 1
  | .load _ => 0
  | .push _ => 0

end Sys2Proof.Machine
end

