-- ==== Sys2Proof/Certificates/Slice0/Obligations.lean ====
section
/-! DEFINITION. The statements about the model, for the provers. Each says which rule of spec/ it formalises, or what
it is derived from. `exec` is applied to the state after the fetch increment, so `s.ip` there is the address of
the instruction plus 1 (spec 45_processor_loop.md R126). -/

open Sys2Proof Sys2Proof.Machine

/-! ### Decoding -/

/-- No bit of an encoding is dropped: decoding the byte of a well-formed instruction gives it back. Derived from
30_encoding.md R62 to R64 and R73. -/
def Obligations.DecodeInvertsEncode : Prop :=
  ∀ i : Instr, i.wellFormed = true → decode (encode i) = .ok i

/-- Each byte has one meaning: a byte that decodes is the byte of the instruction it decodes to, and that
instruction is well-formed. Derived from 30_encoding.md R62 to R64, R71. -/
def Obligations.EncodeInvertsDecode : Prop :=
  ∀ (b : Byte) (i : Instr), decode b = .ok i → i.wellFormed = true ∧ encode i = b

/-- A few bytes written out from the tables of 30_encoding.md R63 and R64. -/
def Obligations.DecodeSampleBytes : Prop :=
  decode 0b00000001 = .ok .subtract ∧ decode 0b00001000 = .ok .read ∧ decode 0b00010100 = .ok .cje ∧
  decode 0b00100000 = .ok .pop ∧ decode 0b00111111 = .ok (.swap 31) ∧ decode 0b01111110 = .ok (.load 62) ∧
  decode 0b01111111 = .error .unknownOpcode ∧ decode 0b10000101 = .ok (.push 5)

/-- R68: the 22 illegal bytes are exactly these, and fetching one faults after the fetch increment and before any
stack access. -/
def Obligations.IllegalBytesFault : Prop :=
  let illegal : List Byte :=
    [0x04, 0x05, 0x06, 0x07, 0x0A, 0x0B, 0x0C, 0x0D, 0x0E, 0x0F, 0x13, 0x15, 0x16, 0x17,
     0x19, 0x1A, 0x1B, 0x1C, 0x1D, 0x1E, 0x1F, 0x7F]
  (∀ b : Byte, decode b = .error .unknownOpcode ↔ b ∈ illegal) ∧
  (∀ (s : State) (b : Byte), s.runState = .running → codeAt s s.ip = some b → b ∈ illegal →
    step s = .next { s with ip := s.ip + 1, fault := some .unknownOpcode, runState := .faulted })

/-- To assemble, R73: a well-formed instruction's name and argument assemble to its byte, and nothing else
assembles. -/
def Obligations.AssembleGivesEncoding : Prop :=
  (∀ i : Instr, i.wellFormed = true → assemble i.name i.argument = some (encode i)) ∧
  (∀ (name : String) (n : Option Nat) (b : Byte), assemble name n = some b →
    ∃ i : Instr, i.wellFormed = true ∧ i.name = name ∧ i.argument = n ∧ encode i = b)

/-! ### The step -/

/-- R126: an iteration fetches `CODE[IP]`, adds 1 to `IP`, decodes, and executes the decoded instruction; a byte
that does not decode raises `UnknownOpcode` after the increment. -/
def Obligations.StepRunsDecodedInstruction : Prop :=
  ∀ s : State, s.runState = .running → ∀ h : s.ip < s.code.length,
    (∀ i : Instr, decode s.code[s.ip] = .ok i → step s = exec i { s with ip := s.ip + 1 }) ∧
    (decode s.code[s.ip] = .error .unknownOpcode →
      step s = .next { s with ip := s.ip + 1, fault := some .unknownOpcode, runState := .faulted })

/-- R127: a RUNNING machine terminates normally exactly when the guard is false, that is when `IP = LEN`, and
then nothing but the run state changes. -/
def Obligations.LoopEndsExactlyAtLen : Prop :=
  ∀ s t : State, Inv s → s.runState = .running → step s = .next t →
    (t.runState = .halted ↔ s.ip = s.code.length) ∧
    (s.ip = s.code.length → t = { s with runState := .halted })

/-- A machine that is not RUNNING stays as it is until the host acts. Derived from 45_processor_loop.md R131 and
60_exceptions.md R165, R172; that a step then answers the same state is the model's choice (log 6). -/
def Obligations.StepLeavesIdleAndEndedAlone : Prop :=
  ∀ s : State, s.runState ≠ .running → step s = .next s

/-- Every step and every instruction ends in a next state: a fault is a state, and nothing is refused. Derived
from 45_processor_loop.md R126, R128 and 60_exceptions.md R165; that a fault is a next state is the model's
reading (log 6). -/
def Obligations.NothingStopsTheStep : Prop :=
  (∀ s : State, ∃ t, step s = .next t) ∧ (∀ (i : Instr) (s : State), ∃ t, exec i s = .next t)

/-- A RUNNING machine's step changes the state unless it waits in a read. Derived from
70_reset_and_hazards.md R189, 42_io.md R93 and 46_external_interfaces.md R149. Two choices of the model enter: that
waiting is a step to the same state is log 5, and that a write never waits for its sink is log 7 (92_eei_decisions.md
D2 assumes it). -/
def Obligations.RunningProgressesUnlessWaiting : Prop :=
  ∀ s : State, s.runState = .running → (step s = .next s ↔ readWaiting s = true)

/-! ### The arithmetic unit -/

/-- R80, R81, R82: add, subtract and multiply are exact results taken mod 256. -/
def Obligations.AluWrapsModulo256 : Prop :=
  ∀ a b : Byte,
    (aluAdd a b).toNat = (a.toNat + b.toNat) % 256 ∧
    ((aluSubtract a b).toNat : Int) = ((a.toNat : Int) - (b.toNat : Int)) % 256 ∧
    (aluMultiply a b).toNat = (a.toNat * b.toNat) % 256

/-- R83: divide is unsigned; a zero divisor raises for every dividend; otherwise quotient and remainder satisfy
`dividend = quotient * divisor + remainder` with `remainder < divisor`. -/
def Obligations.AluDividesUnsigned : Prop :=
  ∀ dividend divisor : Byte,
    (divisor = 0 → aluDivideWithRemainder dividend divisor = .error .divisionByZero) ∧
    (divisor ≠ 0 → ∃ q r : Byte, aluDivideWithRemainder dividend divisor = .ok (q, r) ∧
      q.toNat = dividend.toNat / divisor.toNat ∧ r.toNat = dividend.toNat % divisor.toNat ∧
      dividend.toNat = q.toNat * divisor.toNat + r.toNat ∧ r.toNat < divisor.toNat)

/-- The signed reading of the operands gives the same bytes for add, subtract and multiply. Derived from
41_arithmetic.md R84 (b). -/
def Obligations.AluSignedReadingAgrees : Prop :=
  ∀ a b : Byte,
    aluAdd a b = BitVec.ofInt 8 (a.toInt + b.toInt) ∧
    aluSubtract a b = BitVec.ofInt 8 (a.toInt - b.toInt) ∧
    aluMultiply a b = BitVec.ofInt 8 (a.toInt * b.toInt)

/-! ### The primitives -/

/-- R46: the value check, then the capacity check, then the new head. -/
def Obligations.PushPrimitive : Prop :=
  ∀ (v : Nat) (s : State),
    (255 < v → stackPush v s = .raise .valueOutOfRange s) ∧
    (v ≤ 255 → s.cfg.stackMax = some s.stack.length → stackPush v s = .raise .stackOverflow s) ∧
    (v ≤ 255 → s.cfg.stackMax ≠ some s.stack.length →
      stackPush v s = .ok () { s with stack := BitVec.ofNat 8 v :: s.stack })

/-- R47: pop raises on the empty stack, else removes and returns the head; a pop after a push onto the empty stack
returns the value and leaves the stack empty. -/
def Obligations.PopPrimitive : Prop :=
  ∀ s : State,
    (s.stack = [] → stackPop s = .raise .emptyStack s) ∧
    (∀ h rest, s.stack = h :: rest → stackPop s = .ok h { s with stack := rest }) ∧
    (∀ v : Nat, v ≤ 255 → s.stack = [] → s.cfg.stackMax ≠ some 0 →
      (stackPush v s).andThen (fun _ s' => stackPop s') = .ok (BitVec.ofNat 8 v) s)

/-- R48: load raises past the size, else pushes a copy of the element counted from the head before the push. -/
def Obligations.LoadPrimitive : Prop :=
  ∀ (offset : Nat) (s : State),
    (s.stack.length ≤ offset → stackLoad offset s = .raise .indexOutOfBounds s) ∧
    (∀ h : offset < s.stack.length, HasRoom s →
      stackLoad offset s = .ok () { s with stack := s.stack[offset] :: s.stack }) ∧
    (offset < s.stack.length → ¬ HasRoom s → stackLoad offset s = .raise .stackOverflow s)

/-- R49: swap raises past the size, index 0 included; index 0 discards the head, and no byte decodes to it; any other
index exchanges the head and the element there, and nothing else. -/
def Obligations.SwapPrimitive : Prop :=
  (∀ b : Byte, decode b ≠ .ok (.swap 0)) ∧
  ∀ (index : Nat) (s : State),
    (s.stack.length ≤ index → stackSwap index s = .raise .indexOutOfBounds s) ∧
    (0 < s.stack.length → index = 0 → stackSwap index s = .ok () { s with stack := s.stack.tail }) ∧
    (∀ h : index < s.stack.length, 1 ≤ index →
      stackSwap index s = .ok ()
        { s with stack := (s.stack.set 0 s.stack[index]).set index (s.stack[0]'(by omega)) })

/-- R24: setIP refuses a target below 0 or above `LEN`, keeping `IP`; `LEN` itself is legal. -/
def Obligations.SetIPBoundary : Prop :=
  ∀ (v : Int) (s : State),
    (v < 0 ∨ (s.code.length : Int) < v → setIP v s = .raise .ipOutOfBounds s) ∧
    (0 ≤ v → v ≤ (s.code.length : Int) → setIP v s = .ok () { s with ip := v.toNat })

/-! ### The instructions

Each statement gives the instruction's byte, what it does on every state of a machine within its `STACK_MAX`, and
the faults it takes, in the order it tests for them. The next state is written out, so everything it does not
name is unchanged. -/

/-- R85: add. -/
def Obligations.AddMeaning : Prop :=
  decode 0x00 = .ok .add ∧
  ∀ s : State, StackFits s →
    (∀ a b rest, s.stack = a :: b :: rest →
      exec .add s = .next { s with stack := BitVec.ofNat 8 ((a.toNat + b.toNat) % 256) :: rest }) ∧
    (s.stack.length < 2 → exec .add s = .next (faultedWith .emptyStack [] s))

/-- R86: subtract, the old head minus the element under it. -/
def Obligations.SubtractMeaning : Prop :=
  decode 0x01 = .ok .subtract ∧
  ∀ s : State, StackFits s →
    (∀ a b rest, s.stack = a :: b :: rest →
      exec .subtract s =
        .next { s with stack := BitVec.ofInt 8 (((a.toNat : Int) - (b.toNat : Int)) % 256) :: rest }) ∧
    (s.stack.length < 2 → exec .subtract s = .next (faultedWith .emptyStack [] s))

/-- R87: divide, the remainder on top of the quotient; a zero divisor faults after both pops. -/
def Obligations.DivideMeaning : Prop :=
  decode 0x02 = .ok .divide ∧
  ∀ s : State, StackFits s →
    (∀ a b rest, s.stack = a :: b :: rest → b ≠ 0 →
      exec .divide s = .next { s with
        stack := BitVec.ofNat 8 (a.toNat % b.toNat) :: BitVec.ofNat 8 (a.toNat / b.toNat) :: rest }) ∧
    (∀ a rest, s.stack = a :: 0 :: rest → exec .divide s = .next (faultedWith .divisionByZero rest s)) ∧
    (s.stack.length < 2 → exec .divide s = .next (faultedWith .emptyStack [] s))

/-- R88: multiply. -/
def Obligations.MultiplyMeaning : Prop :=
  decode 0x03 = .ok .multiply ∧
  ∀ s : State, StackFits s →
    (∀ a b rest, s.stack = a :: b :: rest →
      exec .multiply s = .next { s with stack := BitVec.ofNat 8 ((a.toNat * b.toNat) % 256) :: rest }) ∧
    (s.stack.length < 2 → exec .multiply s = .next (faultedWith .emptyStack [] s))

/-- read: a byte of input is consumed and pushed; the end of input faults before any push; on a full stack the
byte is consumed and lost. Derived from 42_io.md R90, R92 and 60_exceptions.md R168. -/
def Obligations.ReadMeaning : Prop :=
  decode 0x08 = .ok .read ∧
  ∀ s : State,
    (∀ v rest, s.input = v :: rest → HasRoom s →
      exec .read s = .next { s with stack := v :: s.stack, input := rest }) ∧
    (∀ v rest, s.input = v :: rest → ¬ HasRoom s →
      exec .read s = .next { s with input := rest, fault := some .stackOverflow, runState := .faulted }) ∧
    (s.input = [] → s.inputEnded = true →
      exec .read s = .next (faultedWith .inputEndOfStream s.stack s))

/-- A read with neither a byte nor an end waits: the step changes nothing, and once a byte has been delivered the
step is the read. Derived from 42_io.md R90, R93; the waiting step is log 5. -/
def Obligations.ReadWaitsForInput : Prop :=
  ∀ s : State, s.runState = .running → codeAt s s.ip = some 0x08 → s.input = [] → s.inputEnded = false →
    step s = .next s ∧
    ∀ b : Byte, HasRoom s → ∃ s', hostEvent (.inputByte b) s = .next (.done, s') ∧
      step s' = .next { s with ip := s.ip + 1, stack := b :: s.stack }

/-- R91: write. -/
def Obligations.WriteMeaning : Prop :=
  decode 0x09 = .ok .write ∧
  ∀ s : State,
    (∀ v rest, s.stack = v :: rest →
      exec .write s = .next { s with stack := rest, output := s.output ++ [v] }) ∧
    (s.stack = [] → exec .write s = .next (faultedWith .emptyStack [] s))

/-- R100: jump. -/
def Obligations.JumpMeaning : Prop :=
  decode 0x10 = .ok .jump ∧
  ∀ s : State,
    (∀ offset rest, s.stack = offset :: rest → s.ip + offset.toNat ≤ s.code.length →
      exec .jump s = .next { s with stack := rest, ip := s.ip + offset.toNat }) ∧
    (∀ offset rest, s.stack = offset :: rest → s.code.length < s.ip + offset.toNat →
      exec .jump s = .next (faultedWith .ipOutOfBounds rest s)) ∧
    (s.stack = [] → exec .jump s = .next (faultedWith .emptyStack [] s))

/-- call; a return address above 255 faults before the target is tested, and a target beyond `LEN` faults after the
return address is pushed. Derived from 43_control.md R101 and 20_memory.md R46: that a return address above 255 raises
`ValueOutOfRange` is the spec's own inference from the two (91_not_in_source.md N10; log 18). -/
def Obligations.CallMeaning : Prop :=
  decode 0x11 = .ok .call ∧
  ∀ s : State, StackFits s →
    (∀ offset rest, s.stack = offset :: rest → s.ip ≤ 255 → s.ip + offset.toNat ≤ s.code.length →
      exec .call s = .next { s with stack := BitVec.ofNat 8 s.ip :: rest, ip := s.ip + offset.toNat }) ∧
    (∀ offset rest, s.stack = offset :: rest → s.ip ≤ 255 → s.code.length < s.ip + offset.toNat →
      exec .call s = .next (faultedWith .ipOutOfBounds (BitVec.ofNat 8 s.ip :: rest) s)) ∧
    (∀ offset rest, s.stack = offset :: rest → 255 < s.ip →
      exec .call s = .next (faultedWith .valueOutOfRange rest s)) ∧
    (s.stack = [] → exec .call s = .next (faultedWith .emptyStack [] s))

/-- R102: ret. -/
def Obligations.RetMeaning : Prop :=
  decode 0x12 = .ok .ret ∧
  ∀ s : State,
    (∀ value rest, s.stack = value :: rest → value.toNat ≤ s.code.length →
      exec .ret s = .next { s with stack := rest, ip := value.toNat }) ∧
    (∀ value rest, s.stack = value :: rest → s.code.length < value.toNat →
      exec .ret s = .next (faultedWith .ipOutOfBounds rest s)) ∧
    (s.stack = [] → exec .ret s = .next (faultedWith .emptyStack [] s))

/-- R103: cje; all three operands are popped either way, and the target is tested only when taken. -/
def Obligations.CjeMeaning : Prop :=
  decode 0x14 = .ok .cje ∧
  ∀ s : State,
    (∀ offset x y rest, s.stack = offset :: x :: y :: rest → x = y →
      s.ip + offset.toNat ≤ s.code.length →
      exec .cje s = .next { s with stack := rest, ip := s.ip + offset.toNat }) ∧
    (∀ offset x y rest, s.stack = offset :: x :: y :: rest → x = y →
      s.code.length < s.ip + offset.toNat →
      exec .cje s = .next (faultedWith .ipOutOfBounds rest s)) ∧
    (∀ offset x y rest, s.stack = offset :: x :: y :: rest → x ≠ y →
      exec .cje s = .next { s with stack := rest }) ∧
    (s.stack.length < 3 → exec .cje s = .next (faultedWith .emptyStack [] s))

/-- R104: jse; taken exactly when the offset was the only element. -/
def Obligations.JseMeaning : Prop :=
  decode 0x18 = .ok .jse ∧
  ∀ s : State,
    (∀ offset, s.stack = [offset] → s.ip + offset.toNat ≤ s.code.length →
      exec .jse s = .next { s with stack := [], ip := s.ip + offset.toNat }) ∧
    (∀ offset, s.stack = [offset] → s.code.length < s.ip + offset.toNat →
      exec .jse s = .next (faultedWith .ipOutOfBounds [] s)) ∧
    (∀ offset b rest, s.stack = offset :: b :: rest →
      exec .jse s = .next { s with stack := b :: rest }) ∧
    (s.stack = [] → exec .jse s = .next (faultedWith .emptyStack [] s))

/-- R115: pop. -/
def Obligations.PopMeaning : Prop :=
  decode 0x20 = .ok .pop ∧
  ∀ s : State,
    (∀ h rest, s.stack = h :: rest → exec .pop s = .next { s with stack := rest }) ∧
    (s.stack = [] → exec .pop s = .next (faultedWith .emptyStack [] s))

/-- R116: swap, for every index a byte encodes. -/
def Obligations.SwapMeaning : Prop :=
  ∀ index : BitVec 5, index ≠ 0 →
    decode (BitVec.ofNat 8 (0x20 + index.toNat)) = .ok (.swap index) ∧
    ∀ s : State,
      (∀ h x, s.stack[0]? = some h → s.stack[index.toNat]? = some x →
        exec (.swap index) s = .next { s with stack := (s.stack.set 0 x).set index.toNat h }) ∧
      (s.stack.length ≤ index.toNat →
        exec (.swap index) s = .next (faultedWith .indexOutOfBounds s.stack s))

/-- R117: load, for every offset a byte encodes. -/
def Obligations.LoadMeaning : Prop :=
  ∀ offset : BitVec 6, offset ≠ 63 →
    decode (BitVec.ofNat 8 (0x40 + offset.toNat)) = .ok (.load offset) ∧
    ∀ s : State,
      (∀ v, s.stack[offset.toNat]? = some v → HasRoom s →
        exec (.load offset) s = .next { s with stack := v :: s.stack }) ∧
      (offset.toNat < s.stack.length → ¬ HasRoom s →
        exec (.load offset) s = .next (faultedWith .stackOverflow s.stack s)) ∧
      (s.stack.length ≤ offset.toNat →
        exec (.load offset) s = .next (faultedWith .indexOutOfBounds s.stack s))

/-- R118: push, for every value. -/
def Obligations.PushMeaning : Prop :=
  ∀ value : BitVec 7,
    decode (BitVec.ofNat 8 (0x80 + value.toNat)) = .ok (.push value) ∧
    ∀ s : State,
      (HasRoom s → exec (.push value) s = .next { s with stack := BitVec.ofNat 8 value.toNat :: s.stack }) ∧
      (¬ HasRoom s → exec (.push value) s = .next (faultedWith .stackOverflow s.stack s))

/-! ### Frames -/

/-- What the arithmetic instructions and pop, swap, load, push leave unchanged: everything but the stack, and on a
fault `FAULT` and `RUN_STATE`. Derived from 45_processor_loop.md R128, 10_state.md R23 and 60_exceptions.md R165. -/
def Obligations.StackOnlyFrame : Prop :=
  ∀ (i : Instr) (s t : State),
    (match i with
      | .add | .subtract | .divide | .multiply | .pop | .swap _ | .load _ | .push _ => True
      | .read | .write | .jump | .call | .ret | .cje | .jse => False) →
    exec i s = .next t →
    t = { s with stack := t.stack } ∨
      ∃ k, t = { s with stack := t.stack, fault := some k, runState := .faulted }

/-- What jump, call, ret, cje and jse leave unchanged: everything but the stack and `IP`; on a fault `IP` too is
unchanged, and `FAULT` and `RUN_STATE` are written. Derived from 45_processor_loop.md R128 and 60_exceptions.md
R165, R168. -/
def Obligations.ControlFrame : Prop :=
  ∀ (i : Instr) (s t : State),
    (match i with
      | .jump | .call | .ret | .cje | .jse => True
      | .add | .subtract | .divide | .multiply | .read | .write | .pop | .swap _ | .load _ | .push _ => False) →
    exec i s = .next t →
    t = { s with stack := t.stack, ip := t.ip } ∨
      ∃ k, t = { s with stack := t.stack, fault := some k, runState := .faulted }

/-- What read and write leave unchanged: read, everything but the stack and the input; while it waits, with neither a
byte nor an end, everything but `IP`, whose fetch increment is taken back (log 5); write, everything but the stack and
the output; on a fault `FAULT` and `RUN_STATE` are written too. Derived from 45_processor_loop.md R128, 42_io.md R90
to R93. -/
def Obligations.StreamFrame : Prop :=
  ∀ s t : State,
    (exec .read s = .next t →
      t = { s with stack := t.stack, input := t.input } ∨
      (s.input = [] ∧ s.inputEnded = false ∧ t = { s with ip := s.ip - 1 }) ∨
      ∃ k, t = { s with input := t.input, fault := some k, runState := .faulted }) ∧
    (exec .write s = .next t →
      t = { s with stack := t.stack, output := t.output } ∨
      ∃ k, t = { s with fault := some k, runState := .faulted })

/-- Every element below the ones an instruction removes or changes keeps its value and its place from the bottom of
the stack, whatever the outcome; for swap also every element strictly between the two it exchanges. Derived from
20_memory.md R46 to R49 and 60_exceptions.md R168. -/
def Obligations.StackBelowOperandsUnchanged : Prop :=
  ∀ (i : Instr) (s t : State), exec i s = .next t →
    (∀ n, n < s.stack.length - reach i → t.stack.reverse[n]? = s.stack.reverse[n]?) ∧
    (∀ index, i = .swap index → i.wellFormed = true → t.stack.length = s.stack.length ∧
      ∀ n, n ≠ 0 → n ≠ index.toNat → t.stack[n]? = s.stack[n]?)

/-- R43: no instruction, no step, and no event after the load but reset changes the code: every offset reads as
before. -/
def Obligations.CodeNeverChanges : Prop :=
  (∀ (i : Instr) (s t : State), exec i s = .next t →
    t.code = s.code ∧ t.codeSet = s.codeSet ∧ ∀ a, codeAt t a = codeAt s a) ∧
  (∀ s t : State, step s = .next t →
    t.code = s.code ∧ t.codeSet = s.codeSet ∧ ∀ a, codeAt t a = codeAt s a) ∧
  (∀ (e : HostEvent) (r : HostReply) (s t : State), e ≠ .reset → s.codeSet = true →
    hostEvent e s = .next (r, t) → t.codeSet = true ∧ ∀ a, codeAt t a = codeAt s a)

/-- The net effect of a completed instruction on the stack's size. Derived from 20_memory.md R51; an instruction
that faults, and a read that waits, has not completed. -/
def Obligations.SizeLaws : Prop :=
  ∀ (i : Instr) (s t : State), i.wellFormed = true → exec i s = .next t → t.runState ≠ .faulted →
    ¬ (i = .read ∧ s.input = []) → (t.stack.length : Int) = (s.stack.length : Int) + sizeChange i

/-! ### Faults -/

/-- An instruction raises only the kinds listed for it, `StackOverflow` only under a finite `STACK_MAX`, and a
machine that raised none is still RUNNING with `FAULT` unchanged. Derived from 60_exceptions.md R155, R164 and
R167. -/
def Obligations.OnlyListedKindsRaised : Prop :=
  ∀ (i : Instr) (s t : State), StackFits s → s.runState = .running → exec i s = .next t →
    (t.runState = .running ∧ t.fault = s.fault) ∨
    (t.runState = .faulted ∧ ∃ k ∈ raisable i, t.fault = some k ∧
      (k = .stackOverflow → s.cfg.stackMax ≠ none))

/-- `ValueOutOfRange` is raised only by a call at an address of at least 255. Derived from 44_stack.md R119 and
60_exceptions.md R159. -/
def Obligations.ValueOutOfRangeOnlyFromHighCall : Prop :=
  ∀ s t : State, s.fault = none → step s = .next t → t.fault = some .valueOutOfRange →
    codeAt s s.ip = some 0x11 ∧ 255 ≤ s.ip

/-- The faulting instruction stands at `IP - 1`: every fault raised in an iteration leaves `IP` one past the
instruction's address. Derived from 45_processor_loop.md R126 (b) and 60_exceptions.md R168. -/
def Obligations.FaultLeavesIncrementedIP : Prop :=
  ∀ s t : State, s.runState = .running → step s = .next t → t.runState = .faulted → t.ip = s.ip + 1

/-- An ended run stays ended: the step leaves it alone, and no event but reset changes the code, `CODE_SET`, the
stack, `IP`, `RUN_STATE`, `FAULT` or the record of output. Derived from 45_processor_loop.md R131 and
60_exceptions.md R165, R169; that an ended machine steps, to the same state, is the model's choice (log 6), and that a
further run has no effect is one that R131 leaves open (log 10). -/
def Obligations.EndedUntilReset : Prop :=
  ∀ s : State, Ended s →
    step s = .next s ∧
    ∀ (e : HostEvent) (r : HostReply) (t : State), e ≠ .reset → hostEvent e s = .next (r, t) →
      t = { s with input := t.input, inputEnded := t.inputEnded }

/-! ### Control flow -/

/-- R22: `0 <= IP <= LEN` between instructions, from every state in which it holds. -/
def Obligations.IPStaysWithinCode : Prop :=
  State.reset.ip ≤ State.reset.code.length ∧
  ∀ s t : State, s.ip ≤ s.code.length → step s = .next t → t.ip ≤ t.code.length

/-- A relative transfer goes forward by at most 255 from the following instruction; only ret can reach a lower
address, and it reaches at most 255. Derived from 43_control.md R102, R105. -/
def Obligations.RelativeTransfersGoForward : Prop :=
  ∀ s t : State,
    (∀ i : Instr, i = .jump ∨ i = .call ∨ i = .cje ∨ i = .jse → exec i s = .next t →
      s.ip ≤ t.ip ∧ t.ip ≤ s.ip + 255) ∧
    (exec .ret s = .next t → t.runState ≠ .faulted → t.ip ≤ 255)

/-! ### The streams -/

/-- The output only grows, by at most one value a step, and nothing else depends on it. Derived from 42_io.md R92. -/
def Obligations.OutputGrowsAndIsNeverRead : Prop :=
  ∀ s t : State, step s = .next t → ∃ w : List Byte, w.length ≤ 1 ∧ t.output = s.output ++ w ∧
    ∀ o : List Byte, step { s with output := o } = .next { t with output := o ++ w }

/-- The input is consumed strictly from the front, at most one byte a step and only by a read, and the step never
looks past its first byte. Derived from 42_io.md R92. -/
def Obligations.InputConsumedInOrder : Prop :=
  ∀ s t : State, step s = .next t →
    (t.input = s.input ∨ ∃ b, s.input = b :: t.input ∧ s.runState = .running ∧ codeAt s s.ip = some 0x08) ∧
    (s.input ≠ [] → ∀ more : List Byte,
      step { s with input := s.input ++ more } = .next { t with input := t.input ++ more })

/-- A step depends on the code only through its length and the byte at `IP`: an illegal byte that is never fetched
does no harm. Derived from 20_memory.md R44 and 60_exceptions.md R160. -/
def Obligations.OnlyFetchedByteMatters : Prop :=
  ∀ (s t : State) (code : List Byte), code.length = s.code.length → code[s.ip]? = s.code[s.ip]? →
    step s = .next t → step { s with code := code } = .next { t with code := code }

/-! ### Reset, load, run, observation -/

/-- R33: the reset values of the spec's table. -/
def Obligations.ResetValues : Prop :=
  State.reset.code = [] ∧ State.reset.codeSet = false ∧ State.reset.stack = [] ∧ State.reset.ip = 0 ∧
  State.reset.runState = .unloaded ∧ State.reset.fault = none

/-- R181: reset may be applied in any state; the CORE takes its reset values, the record of output starts again,
and the input stream is not touched. -/
def Obligations.ResetEvent : Prop :=
  ∀ s : State, ∃ t, hostEvent .reset s = .next (.done, t) ∧
    t.code = [] ∧ t.codeSet = false ∧ t.stack = [] ∧ t.ip = 0 ∧ t.runState = .unloaded ∧ t.fault = none ∧
    t.output = [] ∧ t.input = s.input ∧ t.inputEnded = s.inputEnded ∧ t.cfg = s.cfg

/-- setCode is write-once and stores the whole buffer in one call; a load of the empty sequence is a load, so a second
one fails and a run then fails with `NoCodeLoaded`. Derived from 20_memory.md R42 and 45_processor_loop.md R125; that
the empty load counts is the spec's own reading (92_eei_decisions.md D7; log 19). -/
def Obligations.SetCodeIsWriteOnce : Prop :=
  (∀ (bytes : List Byte) (s : State),
    (s.codeSet = true → setCode bytes s = .error .memoryPermissionsError) ∧
    (s.codeSet = false → setCode bytes s = .ok { s with code := bytes, codeSet := true })) ∧
  ∀ s : State, Inv s → s.runState = .unloaded →
    ∃ t, hostEvent (.load []) s = .next (.done, t) ∧ t.codeSet = true ∧ t.code = [] ∧
      (∀ bytes : List Byte, hostEvent (.load bytes) t = .next (.loadRefused .memoryPermissionsError, t)) ∧
      hostEvent .run t = .next (.done, { t with fault := some .noCodeLoaded, runState := .faulted })

/-- The load interface: the first load within `CODE_MAX` is accepted and leads to READY; a second is refused with
`MemoryPermissionsError` and changes nothing, whatever the run state; a load after a run that failed with no code
has no meaning, and neither has one longer than `CODE_MAX`. Derived from 46_external_interfaces.md R141,
45_processor_loop.md R131 and 92_eei_decisions.md D4, D6; the two refusals are log 10. -/
def Obligations.LoadInterface : Prop :=
  ∀ (bytes : List Byte) (s : State), Inv s →
    (s.runState = .unloaded → Config.admits s.cfg.codeMax bytes.length = true →
      hostEvent (.load bytes) s =
        .next (.done, { s with code := bytes, codeSet := true, runState := .ready })) ∧
    (s.runState = .unloaded → Config.admits s.cfg.codeMax bytes.length = false →
      hostEvent (.load bytes) s = .refused .codeTooLong) ∧
    (s.codeSet = true → hostEvent (.load bytes) s = .next (.loadRefused .memoryPermissionsError, s)) ∧
    (s.runState = .faulted → s.codeSet = false →
      hostEvent (.load bytes) s = .refused .loadAfterFailedRun)

/-- A run with no code fails at once and touches nothing else; otherwise the machine is RUNNING with `IP` 0. Derived
from 45_processor_loop.md R125. That a run in RUNNING, HALTED or FAULTED has no effect is a choice: R131 gives those
rows as the spec's own (92_eei_decisions.md D6) and lets a model refuse them, and this model takes them (log 10). -/
def Obligations.RunInterface : Prop :=
  ∀ s : State, Inv s →
    (s.runState = .unloaded ∨ s.runState = .ready → s.code = [] →
      hostEvent .run s = .next (.done, { s with fault := some .noCodeLoaded, runState := .faulted })) ∧
    (s.runState = .unloaded ∨ s.runState = .ready → s.code ≠ [] →
      s.ip = 0 ∧ hostEvent .run s = .next (.done, { s with runState := .running })) ∧
    (s.runState = .running ∨ Ended s → hostEvent .run s = .next (.done, s))

/-- A run that has ended has one outcome, which is normal termination exactly when there is no fault; a normal
termination leaves `IP = LEN`. Derived from 46_external_interfaces.md R142, 45_processor_loop.md R132 and
00_scope.md R13. -/
def Obligations.EndedRunHasOutcome : Prop :=
  ∀ s : State, Inv s →
    (Ended s → ∃ o, runOutcome s = some o ∧ (o = .terminated ↔ Safe s) ∧
      (o = .terminated → s.ip = s.code.length) ∧ (∀ k, o = .failed k → s.fault = some k)) ∧
    (¬ Ended s → runOutcome s = none)

/-- What the host reads of a machine whose run has ended, for every read number: the state itself, `FAULT` as the number
R155 gives its kind. Derived from
46_external_interfaces.md R146, R147, 10_state.md R28 and 60_exceptions.md R155. -/
def Obligations.ObservationAfterTheRun : Prop :=
  ∀ (s : State) (n : Nat), Ended s →
    (observeRunState n s = 3 ↔ s.runState = .halted) ∧ (observeRunState n s = 4 ↔ s.runState = .faulted) ∧
    (observeFault n s = 0 ↔ s.fault = none) ∧
    (∀ k code, (k, code) ∈ faultNumbers → s.fault = some k → observeFault n s = code) ∧
    observeIP n s = s.ip ∧ observeSize n s = s.stack.length ∧
    (∀ i (h : i < s.stack.length), observeElement n i s = .ok s.stack[i]) ∧
    (∀ a (h : a < s.code.length), codeView a s = .ok s.code[a])

/-! ### The invariant -/

/-- The invariant holds after reset, and the reset event establishes it in any state within the parameters. -/
def Obligations.ResetMeetsInvariant : Prop :=
  Inv State.reset ∧ ∀ (s t : State) (r : HostReply), hostEvent .reset s = .next (r, t) → Inv t

/-- Every step keeps the invariant: `IP` within the code, the stack and the code within their limits, and the run
state in agreement with the fault register, the code flag and the end of the code. -/
def Obligations.StepKeepsInvariant : Prop :=
  ∀ s t : State, Inv s → step s = .next t → Inv t

/-- Every event of the host and the environment keeps the invariant. -/
def Obligations.EventsKeepInvariant : Prop :=
  ∀ (e : HostEvent) (r : HostReply) (s t : State), Inv s → hostEvent e s = .next (r, t) → Inv t

/-! ### The ports -/

/-- The handshakes at the ports, in every cycle and between the pins of that cycle, `rst` and `run` raised or not. An
input byte is consumed exactly when `in_valid` and `in_ready` are both 1, and otherwise still offered. A value is
written to `OUT` when `out_valid` and `out_ready` are both 1; while `out_ready` is 0 nothing of the CORE changes; with
`out_valid` 0 nothing is written, and a reset starts the record again. A load beat is taken when `load_valid` and
`load_ready` are both 1. Derived from 46_external_interfaces.md R148, 42_io.md R93 and 70_reset_and_hazards.md R181;
the form of a cycle is log 14. -/
def Obligations.PortHandshakes : Prop :=
  ∀ (n : Nat) (p : PortInputs) (q q' : PortState), portCycle p q = .next q' →
    let o := portOutputs n p q
    (q'.core.input = if p.inValid && !o.inReady then [p.inData] else []) ∧
    (o.outValid = o.outData.isSome) ∧
    (∀ v, o.outData = some v → p.outReady = true → q'.core.output = q.core.output ++ [v]) ∧
    (∀ v, o.outData = some v → p.outReady = false → q'.core = offerInput p q.core) ∧
    (o.outValid = false → q'.core.output = if p.rst then [] else q.core.output) ∧
    (p.load.valid = true → o.loadReady = true → p.load.empty = false →
      q'.burst = if p.load.last then [] else q.burst ++ [p.load.data]) ∧
    (p.load.valid = false ∨ o.loadReady = false →
      q'.burst = (if p.rst then [] else q.burst) ∧ q'.loadErr = (!p.rst && q.loadErr))
end

