-- ==== Sys2Proof/Laws/State.lean ====
section
/-! SUPPORT. One lemma for each field under each state update and under fault entry, true by unfolding. -/

namespace Sys2Proof.Machine

/-! ### withStack -/

@[simp] theorem State.withStack_cfg (s : State) (v : List Byte) : (s.withStack v).cfg = s.cfg := rfl
@[simp] theorem State.withStack_code (s : State) (v : List Byte) : (s.withStack v).code = s.code := rfl
@[simp] theorem State.withStack_codeSet (s : State) (v : List Byte) : (s.withStack v).codeSet = s.codeSet := rfl
@[simp] theorem State.withStack_stack (s : State) (v : List Byte) : (s.withStack v).stack = v := rfl
@[simp] theorem State.withStack_ip (s : State) (v : List Byte) : (s.withStack v).ip = s.ip := rfl
@[simp] theorem State.withStack_runState (s : State) (v : List Byte) : (s.withStack v).runState = s.runState := rfl
@[simp] theorem State.withStack_fault (s : State) (v : List Byte) : (s.withStack v).fault = s.fault := rfl
@[simp] theorem State.withStack_input (s : State) (v : List Byte) : (s.withStack v).input = s.input := rfl
@[simp] theorem State.withStack_inputEnded (s : State) (v : List Byte) : (s.withStack v).inputEnded = s.inputEnded := rfl
@[simp] theorem State.withStack_output (s : State) (v : List Byte) : (s.withStack v).output = s.output := rfl

/-! ### withIP -/

@[simp] theorem State.withIP_cfg (s : State) (v : Nat) : (s.withIP v).cfg = s.cfg := rfl
@[simp] theorem State.withIP_code (s : State) (v : Nat) : (s.withIP v).code = s.code := rfl
@[simp] theorem State.withIP_codeSet (s : State) (v : Nat) : (s.withIP v).codeSet = s.codeSet := rfl
@[simp] theorem State.withIP_stack (s : State) (v : Nat) : (s.withIP v).stack = s.stack := rfl
@[simp] theorem State.withIP_ip (s : State) (v : Nat) : (s.withIP v).ip = v := rfl
@[simp] theorem State.withIP_runState (s : State) (v : Nat) : (s.withIP v).runState = s.runState := rfl
@[simp] theorem State.withIP_fault (s : State) (v : Nat) : (s.withIP v).fault = s.fault := rfl
@[simp] theorem State.withIP_input (s : State) (v : Nat) : (s.withIP v).input = s.input := rfl
@[simp] theorem State.withIP_inputEnded (s : State) (v : Nat) : (s.withIP v).inputEnded = s.inputEnded := rfl
@[simp] theorem State.withIP_output (s : State) (v : Nat) : (s.withIP v).output = s.output := rfl

/-! ### withInput -/

@[simp] theorem State.withInput_cfg (s : State) (v : List Byte) : (s.withInput v).cfg = s.cfg := rfl
@[simp] theorem State.withInput_code (s : State) (v : List Byte) : (s.withInput v).code = s.code := rfl
@[simp] theorem State.withInput_codeSet (s : State) (v : List Byte) : (s.withInput v).codeSet = s.codeSet := rfl
@[simp] theorem State.withInput_stack (s : State) (v : List Byte) : (s.withInput v).stack = s.stack := rfl
@[simp] theorem State.withInput_ip (s : State) (v : List Byte) : (s.withInput v).ip = s.ip := rfl
@[simp] theorem State.withInput_runState (s : State) (v : List Byte) : (s.withInput v).runState = s.runState := rfl
@[simp] theorem State.withInput_fault (s : State) (v : List Byte) : (s.withInput v).fault = s.fault := rfl
@[simp] theorem State.withInput_input (s : State) (v : List Byte) : (s.withInput v).input = v := rfl
@[simp] theorem State.withInput_inputEnded (s : State) (v : List Byte) : (s.withInput v).inputEnded = s.inputEnded := rfl
@[simp] theorem State.withInput_output (s : State) (v : List Byte) : (s.withInput v).output = s.output := rfl

/-! ### withOutput -/

@[simp] theorem State.withOutput_cfg (s : State) (v : List Byte) : (s.withOutput v).cfg = s.cfg := rfl
@[simp] theorem State.withOutput_code (s : State) (v : List Byte) : (s.withOutput v).code = s.code := rfl
@[simp] theorem State.withOutput_codeSet (s : State) (v : List Byte) : (s.withOutput v).codeSet = s.codeSet := rfl
@[simp] theorem State.withOutput_stack (s : State) (v : List Byte) : (s.withOutput v).stack = s.stack := rfl
@[simp] theorem State.withOutput_ip (s : State) (v : List Byte) : (s.withOutput v).ip = s.ip := rfl
@[simp] theorem State.withOutput_runState (s : State) (v : List Byte) : (s.withOutput v).runState = s.runState := rfl
@[simp] theorem State.withOutput_fault (s : State) (v : List Byte) : (s.withOutput v).fault = s.fault := rfl
@[simp] theorem State.withOutput_input (s : State) (v : List Byte) : (s.withOutput v).input = s.input := rfl
@[simp] theorem State.withOutput_inputEnded (s : State) (v : List Byte) : (s.withOutput v).inputEnded = s.inputEnded := rfl
@[simp] theorem State.withOutput_output (s : State) (v : List Byte) : (s.withOutput v).output = v := rfl

/-! ### withRunState -/

@[simp] theorem State.withRunState_cfg (s : State) (v : RunState) : (s.withRunState v).cfg = s.cfg := rfl
@[simp] theorem State.withRunState_code (s : State) (v : RunState) : (s.withRunState v).code = s.code := rfl
@[simp] theorem State.withRunState_codeSet (s : State) (v : RunState) : (s.withRunState v).codeSet = s.codeSet := rfl
@[simp] theorem State.withRunState_stack (s : State) (v : RunState) : (s.withRunState v).stack = s.stack := rfl
@[simp] theorem State.withRunState_ip (s : State) (v : RunState) : (s.withRunState v).ip = s.ip := rfl
@[simp] theorem State.withRunState_runState (s : State) (v : RunState) : (s.withRunState v).runState = v := rfl
@[simp] theorem State.withRunState_fault (s : State) (v : RunState) : (s.withRunState v).fault = s.fault := rfl
@[simp] theorem State.withRunState_input (s : State) (v : RunState) : (s.withRunState v).input = s.input := rfl
@[simp] theorem State.withRunState_inputEnded (s : State) (v : RunState) : (s.withRunState v).inputEnded = s.inputEnded := rfl
@[simp] theorem State.withRunState_output (s : State) (v : RunState) : (s.withRunState v).output = s.output := rfl

/-! ### takeFault -/

@[simp] theorem takeFault_cfg (k : FaultKind) (s : State) : (takeFault k s).cfg = s.cfg := rfl
@[simp] theorem takeFault_code (k : FaultKind) (s : State) : (takeFault k s).code = s.code := rfl
@[simp] theorem takeFault_codeSet (k : FaultKind) (s : State) : (takeFault k s).codeSet = s.codeSet := rfl
@[simp] theorem takeFault_stack (k : FaultKind) (s : State) : (takeFault k s).stack = s.stack := rfl
@[simp] theorem takeFault_ip (k : FaultKind) (s : State) : (takeFault k s).ip = s.ip := rfl
@[simp] theorem takeFault_runState (k : FaultKind) (s : State) : (takeFault k s).runState = .faulted := rfl
@[simp] theorem takeFault_fault (k : FaultKind) (s : State) : (takeFault k s).fault = some k := rfl
@[simp] theorem takeFault_input (k : FaultKind) (s : State) : (takeFault k s).input = s.input := rfl
@[simp] theorem takeFault_inputEnded (k : FaultKind) (s : State) : (takeFault k s).inputEnded = s.inputEnded := rfl
@[simp] theorem takeFault_output (k : FaultKind) (s : State) : (takeFault k s).output = s.output := rfl

/-! ### awaitStream -/

@[simp] theorem awaitStream_cfg (s : State) : (awaitStream s).cfg = s.cfg := rfl
@[simp] theorem awaitStream_code (s : State) : (awaitStream s).code = s.code := rfl
@[simp] theorem awaitStream_codeSet (s : State) : (awaitStream s).codeSet = s.codeSet := rfl
@[simp] theorem awaitStream_stack (s : State) : (awaitStream s).stack = s.stack := rfl
@[simp] theorem awaitStream_ip (s : State) : (awaitStream s).ip = s.ip - 1 := rfl
@[simp] theorem awaitStream_runState (s : State) : (awaitStream s).runState = s.runState := rfl
@[simp] theorem awaitStream_fault (s : State) : (awaitStream s).fault = s.fault := rfl
@[simp] theorem awaitStream_input (s : State) : (awaitStream s).input = s.input := rfl
@[simp] theorem awaitStream_inputEnded (s : State) : (awaitStream s).inputEnded = s.inputEnded := rfl
@[simp] theorem awaitStream_output (s : State) : (awaitStream s).output = s.output := rfl

/-! ### Updates of one field twice, and the derived lengths -/

@[simp] theorem State.withStack_withStack (s : State) (v w : List Byte) :
    (s.withStack v).withStack w = s.withStack w := rfl

@[simp] theorem State.withIP_withIP (s : State) (v w : Nat) : (s.withIP v).withIP w = s.withIP w := rfl

@[simp] theorem State.withStack_self (s : State) : s.withStack s.stack = s := rfl

@[simp] theorem State.withIP_self (s : State) : s.withIP s.ip = s := rfl

/-- `LEN` is the length of the code list. -/
@[simp] theorem State.len_eq (s : State) : s.len = s.code.length := rfl

/-- `size` is the length of the stack list. -/
@[simp] theorem State.size_eq (s : State) : s.size = s.stack.length := rfl

/-- Waiting undoes the fetch increment. -/
@[simp] theorem awaitStream_withIP_succ (s : State) (a : Nat) :
    awaitStream (s.withIP (a + 1)) = s.withIP a := rfl

end Sys2Proof.Machine
end

