-- ==== Sys2Proof/Laws/Ops.lean ====
section
/-! SUPPORT. For each shared operation, what it can do: equations for its cases, and one lemma that lists them all. -/

namespace Sys2Proof.Machine

/-! ### Sequencing -/

@[simp] theorem Result.andThen_ok {α β : Type} (a : α) (s : State) (f : α → State → Result β) :
    (Result.ok a s).andThen f = f a s := rfl

@[simp] theorem Result.andThen_raise {α β : Type} (k : FaultKind) (s : State) (f : α → State → Result β) :
    (Result.raise k s : Result α).andThen f = .raise k s := rfl

@[simp] theorem Result.andThen_wait {α β : Type} (s : State) (f : α → State → Result β) :
    (Result.wait s : Result α).andThen f = .wait s := rfl

@[simp] theorem raiseOr_ok {α : Type} (a : α) (s : State) :
    raiseOr (.ok a) s = .ok a s := rfl

@[simp] theorem raiseOr_error {α : Type} (k : FaultKind) (s : State) :
    raiseOr (.error k : Except FaultKind α) s = .raise k s := rfl

@[simp] theorem finish_ok (s : State) : finish (.ok () s) = .next s := rfl

@[simp] theorem finish_raise (k : FaultKind) (s : State) : finish (.raise k s) = .next (takeFault k s) := rfl

@[simp] theorem finish_wait (s : State) : finish (.wait s) = .next (awaitStream s) := rfl

/-- However its sub-steps end, an instruction ends in a next state. -/
theorem finish_is_next (r : Result Unit) : ∃ t, finish r = .next t := by
  cases r <;> exact ⟨_, rfl⟩

/-- Every end of an instruction: done, faulted or waiting. -/
theorem finish_cases {r : Result Unit} {t : State} (h : finish r = .next t) :
    r = .ok () t ∨ (∃ k s, r = .raise k s ∧ t = takeFault k s) ∨ (∃ s, r = .wait s ∧ t = awaitStream s) := by
  cases r with
  | ok u s => cases h; exact .inl rfl
  | raise k s => cases h; exact .inr (.inl ⟨k, s, rfl, rfl⟩)
  | wait s => cases h; exact .inr (.inr ⟨s, rfl, rfl⟩)

/-! ### The ByteStack -/

theorem stackPush_high {v : Nat} (s : State) (h : 255 < v) : stackPush v s = .raise .valueOutOfRange s := by
  simp [stackPush, h]

theorem stackPush_full {v : Nat} {s : State} (h : v ≤ 255) (hf : s.cfg.stackMax = some s.stack.length) :
    stackPush v s = .raise .stackOverflow s := by
  simp [stackPush, Nat.not_lt.mpr h, hf]

theorem stackPush_room {v : Nat} {s : State} (h : v ≤ 255) (hr : s.cfg.stackMax ≠ some s.stack.length) :
    stackPush v s = .ok () (s.withStack (BitVec.ofNat 8 v :: s.stack)) := by
  simp [stackPush, Nat.not_lt.mpr h, hr]

/-- A push of a byte passes the value check (44_stack.md R119). -/
theorem stackPush_byte {b : Byte} {s : State} (hr : s.cfg.stackMax ≠ some s.stack.length) :
    stackPush b.toNat s = .ok () (s.withStack (b :: s.stack)) := by
  have hb : b.toNat ≤ 255 := by have := b.isLt; omega
  simp [stackPush_room hb hr]

/-- Everything `push` can do. -/
theorem stackPush_cases (v : Nat) (s : State) :
    (255 < v ∧ stackPush v s = .raise .valueOutOfRange s) ∨
    (v ≤ 255 ∧ s.cfg.stackMax = some s.stack.length ∧ stackPush v s = .raise .stackOverflow s) ∨
    (v ≤ 255 ∧ s.cfg.stackMax ≠ some s.stack.length ∧
      stackPush v s = .ok () (s.withStack (BitVec.ofNat 8 v :: s.stack))) := by
  by_cases h : 255 < v
  · exact .inl ⟨h, stackPush_high s h⟩
  · have h' : v ≤ 255 := by omega
    by_cases hf : s.cfg.stackMax = some s.stack.length
    · exact .inr (.inl ⟨h', hf, stackPush_full h' hf⟩)
    · exact .inr (.inr ⟨h', hf, stackPush_room h' hf⟩)

theorem stackPop_nil {s : State} (h : s.stack = []) : stackPop s = .raise .emptyStack s := by
  simp [stackPop, h]

theorem stackPop_cons {s : State} {b : Byte} {rest : List Byte} (h : s.stack = b :: rest) :
    stackPop s = .ok b (s.withStack rest) := by
  simp [stackPop, h]

/-- Everything `pop` can do. -/
theorem stackPop_cases (s : State) :
    (s.stack = [] ∧ stackPop s = .raise .emptyStack s) ∨
    (∃ b rest, s.stack = b :: rest ∧ stackPop s = .ok b (s.withStack rest)) := by
  cases h : s.stack with
  | nil => exact .inl ⟨rfl, stackPop_nil h⟩
  | cons b rest => exact .inr ⟨b, rest, rfl, stackPop_cons h⟩

theorem stackLoad_none {offset : Nat} {s : State} (h : s.stack[offset]? = none) :
    stackLoad offset s = .raise .indexOutOfBounds s := by
  simp [stackLoad, h]

theorem stackLoad_some {offset : Nat} {s : State} {v : Byte} (h : s.stack[offset]? = some v) :
    stackLoad offset s = stackPush v.toNat s := by
  simp [stackLoad, h]

/-- Everything `load` can do. -/
theorem stackLoad_cases (offset : Nat) (s : State) :
    (s.stack[offset]? = none ∧ stackLoad offset s = .raise .indexOutOfBounds s) ∨
    (∃ v, s.stack[offset]? = some v ∧ s.cfg.stackMax = some s.stack.length ∧
      stackLoad offset s = .raise .stackOverflow s) ∨
    (∃ v, s.stack[offset]? = some v ∧ s.cfg.stackMax ≠ some s.stack.length ∧
      stackLoad offset s = .ok () (s.withStack (v :: s.stack))) := by
  cases h : s.stack[offset]? with
  | none => exact .inl ⟨rfl, stackLoad_none h⟩
  | some v =>
    have hv : v.toNat ≤ 255 := by have := v.isLt; omega
    by_cases hf : s.cfg.stackMax = some s.stack.length
    · exact .inr (.inl ⟨v, rfl, hf, by rw [stackLoad_some h, stackPush_full hv hf]⟩)
    · exact .inr (.inr ⟨v, rfl, hf, by rw [stackLoad_some h, stackPush_byte hf]⟩)

theorem stackSwap_none {index : Nat} {s : State} (h : s.stack[index]? = none) :
    stackSwap index s = .raise .indexOutOfBounds s := by
  cases hs : s.stack <;> simp_all [stackSwap]

theorem stackSwap_some {index : Nat} {s : State} {b x : Byte} {rest : List Byte} (hs : s.stack = b :: rest)
    (h : s.stack[index]? = some x) :
    stackSwap index s = .ok () (s.withStack (if index = 0 then rest else x :: rest.set (index - 1) b)) := by
  simp_all [stackSwap]

/-- Everything `swap` can do. -/
theorem stackSwap_cases (index : Nat) (s : State) :
    (s.stack[index]? = none ∧ stackSwap index s = .raise .indexOutOfBounds s) ∨
    (∃ b rest x, s.stack = b :: rest ∧ s.stack[index]? = some x ∧
      stackSwap index s = .ok () (s.withStack (if index = 0 then rest else x :: rest.set (index - 1) b))) := by
  cases h : s.stack[index]? with
  | none => exact .inl ⟨rfl, stackSwap_none h⟩
  | some x =>
    cases hs : s.stack with
    | nil => simp [hs] at h
    | cons b rest => exact .inr ⟨b, rest, x, rfl, rfl, stackSwap_some hs h⟩

@[simp] theorem stackIsEmpty_iff (s : State) : stackIsEmpty s = true ↔ s.stack = [] := by
  simp [stackIsEmpty]

/-! ### The instruction pointer -/

/-- A target given by a natural number, within the code or just past its end. -/
theorem setIP_in {n : Nat} {s : State} (h : n ≤ s.code.length) : setIP (n : Int) s = .ok () (s.withIP n) := by
  have h1 : ¬ ((n : Int) < 0 ∨ (s.code.length : Int) < (n : Int)) := by omega
  simp [setIP]
  omega

/-- A target given by a natural number, beyond the end of the code. -/
theorem setIP_out {n : Nat} {s : State} (h : s.code.length < n) :
    setIP (n : Int) s = .raise .ipOutOfBounds s := by
  simp [setIP]
  omega

/-- Everything `setIP` can do with a target that is a natural number. -/
theorem setIP_cases (n : Nat) (s : State) :
    (n ≤ s.code.length ∧ setIP (n : Int) s = .ok () (s.withIP n)) ∨
    (s.code.length < n ∧ setIP (n : Int) s = .raise .ipOutOfBounds s) := by
  by_cases h : n ≤ s.code.length
  · exact .inl ⟨h, setIP_in h⟩
  · exact .inr ⟨by omega, setIP_out (by omega)⟩

/-- A relative target is the natural number `IP + offset`. -/
theorem relativeTarget_eq (offset : Byte) (s : State) :
    relativeTarget offset s = ((s.ip + offset.toNat : Nat) : Int) := by
  simp [relativeTarget]

/-- An absolute target is the byte as a natural number. -/
theorem absoluteTarget_eq (value : Byte) : absoluteTarget value = ((value.toNat : Nat) : Int) := rfl

/-! ### Fetch -/

theorem fetch_some {s : State} {b : Byte} (h : codeAt s s.ip = some b) :
    fetch s = some (b, s.withIP (s.ip + 1)) := by
  simp [fetch, h]

/-- The guard is false exactly from the end of the code on. -/
theorem fetch_none_iff (s : State) : fetch s = none ↔ s.code.length ≤ s.ip := by
  cases h : codeAt s s.ip with
  | none => simpa [fetch, h] using (by simpa [codeAt] using h)
  | some b =>
    have : s.ip < s.code.length := by
      simp only [codeAt] at h
      exact (List.getElem?_eq_some_iff.mp h).1
    simp [fetch, h]
    omega

/-! ### The streams -/

/-- Everything `readByte` can do. -/
theorem readByte_cases (s : State) :
    (∃ b rest, s.input = b :: rest ∧ readByte s = .ok b (s.withInput rest)) ∨
    (s.input = [] ∧ s.inputEnded = true ∧ readByte s = .raise .inputEndOfStream s) ∨
    (s.input = [] ∧ s.inputEnded = false ∧ readByte s = .wait s) := by
  cases h : s.input with
  | cons b rest => exact .inl ⟨b, rest, rfl, by simp [readByte, h]⟩
  | nil =>
    cases he : s.inputEnded with
    | true => exact .inr (.inl ⟨rfl, rfl, by simp [readByte, h, he]⟩)
    | false => exact .inr (.inr ⟨rfl, rfl, by simp [readByte, h, he]⟩)

@[simp] theorem writeChar_eq (v : Byte) (s : State) :
    writeChar v s = .ok () (s.withOutput (s.output ++ [v])) := rfl

/-! ### Operands -/

theorem popTwo_cons {s : State} {a b : Byte} {rest : List Byte} (h : s.stack = a :: b :: rest) :
    popTwo s = .ok (a, b) (s.withStack rest) := by
  simp [popTwo, stackPop, h]

theorem popTwo_short {s : State} (h : s.stack.length < 2) :
    popTwo s = .raise .emptyStack (s.withStack []) := by
  match hs : s.stack, h with
  | [], _ => simp [popTwo, stackPop_nil hs, ← hs]
  | [a], _ =>
    have : (s.withStack []).stack = [] := rfl
    simp [popTwo, stackPop_cons hs, stackPop_nil this]
  | a :: b :: rest, h => simp at h

/-- Everything `popTwo` can do. -/
theorem popTwo_cases (s : State) :
    (s.stack.length < 2 ∧ popTwo s = .raise .emptyStack (s.withStack [])) ∨
    (∃ a b rest, s.stack = a :: b :: rest ∧ popTwo s = .ok (a, b) (s.withStack rest)) := by
  match hs : s.stack with
  | [] => exact .inl ⟨by simp, popTwo_short (by simp [hs])⟩
  | [a] => exact .inl ⟨by simp, popTwo_short (by simp [hs])⟩
  | a :: b :: rest => exact .inr ⟨a, b, rest, rfl, popTwo_cons hs⟩

theorem popThree_cons {s : State} {a b c : Byte} {rest : List Byte} (h : s.stack = a :: b :: c :: rest) :
    popThree s = .ok (a, b, c) (s.withStack rest) := by
  have : (s.withStack (b :: c :: rest)).stack = b :: c :: rest := rfl
  simp [popThree, stackPop_cons h, popTwo_cons this]

theorem popThree_short {s : State} (h : s.stack.length < 3) :
    popThree s = .raise .emptyStack (s.withStack []) := by
  cases hs : s.stack with
  | nil => simp [popThree, stackPop_nil hs, ← hs]
  | cons a rest =>
    have : (s.withStack rest).stack.length < 2 := by simp [hs] at h ⊢; omega
    simp [popThree, stackPop_cons hs, popTwo_short this]

/-- Everything `popThree` can do. -/
theorem popThree_cases (s : State) :
    (s.stack.length < 3 ∧ popThree s = .raise .emptyStack (s.withStack [])) ∨
    (∃ a b c rest, s.stack = a :: b :: c :: rest ∧ popThree s = .ok (a, b, c) (s.withStack rest)) := by
  match hs : s.stack with
  | [] => exact .inl ⟨by simp, popThree_short (by simp [hs])⟩
  | [a] => exact .inl ⟨by simp, popThree_short (by simp [hs])⟩
  | [a, b] => exact .inl ⟨by simp, popThree_short (by simp [hs])⟩
  | a :: b :: c :: rest => exact .inr ⟨a, b, c, rest, rfl, popThree_cons hs⟩

@[simp] theorem cjeTaken_iff (x y : Byte) : cjeTaken x y = true ↔ x = y := by simp [cjeTaken]

@[simp] theorem jseTaken_iff (s : State) : jseTaken s = true ↔ s.stack = [] := by simp [jseTaken]

end Sys2Proof.Machine
end

