-- ==== Sys2Proof/Laws/Exec.lean ====
section
/-! SUPPORT. For each meaning, everything it can do, as a disjunction of its cases; and the same for the step.
Claims about what an instruction changes are read off these, without unfolding a meaning again. -/

namespace Sys2Proof.Machine

/-! ### Arithmetic -/

theorem binaryOperation_cases (f : Byte → Byte → Byte) (s : State) :
    (s.stack.length < 2 ∧ binaryOperation f s = .next (takeFault .emptyStack (s.withStack []))) ∨
    (∃ a b rest, s.stack = a :: b :: rest ∧ s.cfg.stackMax = some rest.length ∧
      binaryOperation f s = .next (takeFault .stackOverflow (s.withStack rest))) ∨
    (∃ a b rest, s.stack = a :: b :: rest ∧ s.cfg.stackMax ≠ some rest.length ∧
      binaryOperation f s = .next (s.withStack (f a b :: rest))) := by
  rcases popTwo_cases s with ⟨h, e⟩ | ⟨a, b, rest, h, e⟩
  · exact .inl ⟨h, by simp [binaryOperation, e]⟩
  · by_cases hm : s.cfg.stackMax = some rest.length
    · have hv : (f a b).toNat ≤ 255 := by have := (f a b).isLt; omega
      exact .inr (.inl ⟨a, b, rest, h, hm, by
        simp [binaryOperation, e, stackPush_full (s := s.withStack rest) hv hm]⟩)
    · exact .inr (.inr ⟨a, b, rest, h, hm, by
        simp [binaryOperation, e, stackPush_byte (s := s.withStack rest) hm]⟩)

theorem aluDivideWithRemainder_zero (a : Byte) :
    aluDivideWithRemainder a 0 = .error .divisionByZero := rfl

theorem aluDivideWithRemainder_nonzero {a b : Byte} (h : b ≠ 0) :
    aluDivideWithRemainder a b =
      .ok (BitVec.ofNat 8 (a.toNat / b.toNat), BitVec.ofNat 8 (a.toNat % b.toNat)) := by
  have hb : ¬ b.toNat = 0 := fun hz => h (BitVec.eq_of_toNat_eq (by simpa using hz))
  simp only [aluDivideWithRemainder, if_neg hb]

theorem execDivide_cases (s : State) :
    (s.stack.length < 2 ∧ execDivide s = .next (takeFault .emptyStack (s.withStack []))) ∨
    (∃ a rest, s.stack = a :: 0 :: rest ∧
      execDivide s = .next (takeFault .divisionByZero (s.withStack rest))) ∨
    (∃ a b rest, s.stack = a :: b :: rest ∧ b ≠ 0 ∧ s.cfg.stackMax = some rest.length ∧
      execDivide s = .next (takeFault .stackOverflow (s.withStack rest))) ∨
    (∃ a b rest, s.stack = a :: b :: rest ∧ b ≠ 0 ∧ s.cfg.stackMax = some (rest.length + 1) ∧
      execDivide s = .next (takeFault .stackOverflow
        (s.withStack (BitVec.ofNat 8 (a.toNat / b.toNat) :: rest)))) ∨
    (∃ a b rest, s.stack = a :: b :: rest ∧ b ≠ 0 ∧ s.cfg.stackMax ≠ some rest.length ∧
      s.cfg.stackMax ≠ some (rest.length + 1) ∧
      execDivide s = .next (s.withStack
        (BitVec.ofNat 8 (a.toNat % b.toNat) :: BitVec.ofNat 8 (a.toNat / b.toNat) :: rest))) := by
  rcases popTwo_cases s with ⟨h, e⟩ | ⟨a, b, rest, h, e⟩
  · exact .inl ⟨h, by simp [execDivide, e]⟩
  by_cases hb : b = 0
  · subst hb
    exact .inr (.inl ⟨a, rest, h, by
      simp only [execDivide, e, Result.andThen_ok, aluDivideWithRemainder_zero, raiseOr_error,
        Result.andThen_raise, finish_raise]⟩)
  have run : execDivide s = finish ((stackPush (BitVec.ofNat 8 (a.toNat / b.toNat)).toNat (s.withStack rest)).andThen
      fun _ s' => stackPush (BitVec.ofNat 8 (a.toNat % b.toNat)).toNat s') := by
    simp only [execDivide, e, Result.andThen_ok, aluDivideWithRemainder_nonzero hb, raiseOr_ok]
  have byte_le : ∀ v : Byte, v.toNat ≤ 255 := fun v => by have := v.isLt; omega
  by_cases h1 : s.cfg.stackMax = some rest.length
  · exact .inr (.inr (.inl ⟨a, b, rest, h, hb, h1, by
      rw [run, stackPush_full (byte_le _) (by simpa using h1), Result.andThen_raise, finish_raise]⟩))
  rw [stackPush_byte (by simpa using h1), Result.andThen_ok, State.withStack_stack,
    State.withStack_withStack] at run
  by_cases h2 : s.cfg.stackMax = some (rest.length + 1)
  · exact .inr (.inr (.inr (.inl ⟨a, b, rest, h, hb, h2, by
      rw [run, stackPush_full (byte_le _) (by simpa using h2), finish_raise]⟩)))
  · exact .inr (.inr (.inr (.inr ⟨a, b, rest, h, hb, h1, h2, by
      rw [run, stackPush_byte (by simpa using h2), finish_ok, State.withStack_stack,
        State.withStack_withStack]⟩)))

/-! ### Input and output -/

theorem execRead_cases (s : State) :
    (∃ v rest, s.input = v :: rest ∧ s.cfg.stackMax ≠ some s.stack.length ∧
      execRead s = .next ((s.withInput rest).withStack (v :: s.stack))) ∨
    (∃ v rest, s.input = v :: rest ∧ s.cfg.stackMax = some s.stack.length ∧
      execRead s = .next (takeFault .stackOverflow (s.withInput rest))) ∨
    (s.input = [] ∧ s.inputEnded = true ∧ execRead s = .next (takeFault .inputEndOfStream s)) ∨
    (s.input = [] ∧ s.inputEnded = false ∧ execRead s = .next (awaitStream s)) := by
  rcases readByte_cases s with ⟨v, rest, h, e⟩ | ⟨h, he, e⟩ | ⟨h, he, e⟩
  · have hv : v.toNat ≤ 255 := by have := v.isLt; omega
    by_cases hm : s.cfg.stackMax = some s.stack.length
    · exact .inr (.inl ⟨v, rest, h, hm, by
        simp [execRead, e, stackPush_full (s := s.withInput rest) hv hm]⟩)
    · exact .inl ⟨v, rest, h, hm, by
        simp [execRead, e, stackPush_byte (s := s.withInput rest) hm]⟩
  · exact .inr (.inr (.inl ⟨h, he, by simp [execRead, e]⟩))
  · exact .inr (.inr (.inr ⟨h, he, by simp [execRead, e]⟩))

theorem execWrite_cases (s : State) :
    (s.stack = [] ∧ execWrite s = .next (takeFault .emptyStack s)) ∨
    (∃ v rest, s.stack = v :: rest ∧
      execWrite s = .next ((s.withStack rest).withOutput (s.output ++ [v]))) := by
  rcases stackPop_cases s with ⟨h, e⟩ | ⟨v, rest, h, e⟩
  · exact .inl ⟨h, by simp [execWrite, e]⟩
  · exact .inr ⟨v, rest, h, by simp [execWrite, e]⟩

/-! ### Control transfer -/

theorem execJump_cases (s : State) :
    (s.stack = [] ∧ execJump s = .next (takeFault .emptyStack s)) ∨
    (∃ offset rest, s.stack = offset :: rest ∧ s.ip + offset.toNat ≤ s.code.length ∧
      execJump s = .next ((s.withStack rest).withIP (s.ip + offset.toNat))) ∨
    (∃ offset rest, s.stack = offset :: rest ∧ s.code.length < s.ip + offset.toNat ∧
      execJump s = .next (takeFault .ipOutOfBounds (s.withStack rest))) := by
  rcases stackPop_cases s with ⟨h, e⟩ | ⟨offset, rest, h, e⟩
  · exact .inl ⟨h, by simp [execJump, e]⟩
  · rcases setIP_cases (s.ip + offset.toNat) (s.withStack rest) with ⟨hl, e'⟩ | ⟨hl, e'⟩
    · exact .inr (.inl ⟨offset, rest, h, hl, by
        simp only [execJump, e, Result.andThen_ok, relativeTarget_eq, State.withStack_ip, e', finish_ok]⟩)
    · exact .inr (.inr ⟨offset, rest, h, hl, by
        simp only [execJump, e, Result.andThen_ok, relativeTarget_eq, State.withStack_ip, e', finish_raise]⟩)

theorem execCall_cases (s : State) :
    (s.stack = [] ∧ execCall s = .next (takeFault .emptyStack s)) ∨
    (∃ offset rest, s.stack = offset :: rest ∧ 255 < s.ip ∧
      execCall s = .next (takeFault .valueOutOfRange (s.withStack rest))) ∨
    (∃ offset rest, s.stack = offset :: rest ∧ s.ip ≤ 255 ∧ s.cfg.stackMax = some rest.length ∧
      execCall s = .next (takeFault .stackOverflow (s.withStack rest))) ∨
    (∃ offset rest, s.stack = offset :: rest ∧ s.ip ≤ 255 ∧ s.cfg.stackMax ≠ some rest.length ∧
      s.ip + offset.toNat ≤ s.code.length ∧
      execCall s = .next ((s.withStack (BitVec.ofNat 8 s.ip :: rest)).withIP (s.ip + offset.toNat))) ∨
    (∃ offset rest, s.stack = offset :: rest ∧ s.ip ≤ 255 ∧ s.cfg.stackMax ≠ some rest.length ∧
      s.code.length < s.ip + offset.toNat ∧
      execCall s = .next (takeFault .ipOutOfBounds (s.withStack (BitVec.ofNat 8 s.ip :: rest)))) := by
  rcases stackPop_cases s with ⟨h, e⟩ | ⟨offset, rest, h, e⟩
  · exact .inl ⟨h, by simp [execCall, e]⟩
  rcases stackPush_cases s.ip (s.withStack rest) with ⟨hv, e'⟩ | ⟨hv, hm, e'⟩ | ⟨hv, hm, e'⟩
  · exact .inr (.inl ⟨offset, rest, h, hv, by simp [execCall, e, e']⟩)
  · exact .inr (.inr (.inl ⟨offset, rest, h, hv, hm, by simp [execCall, e, e']⟩))
  · simp only [State.withStack_stack, State.withStack_withStack] at e'
    rcases setIP_cases (s.ip + offset.toNat) (s.withStack (BitVec.ofNat 8 s.ip :: rest)) with
      ⟨hl, e''⟩ | ⟨hl, e''⟩
    · exact .inr (.inr (.inr (.inl ⟨offset, rest, h, hv, hm, hl, by
        simp only [execCall, e, Result.andThen_ok, State.withStack_ip, e', relativeTarget_eq, e'', finish_ok]⟩)))
    · exact .inr (.inr (.inr (.inr ⟨offset, rest, h, hv, hm, hl, by
        simp only [execCall, e, Result.andThen_ok, State.withStack_ip, e', relativeTarget_eq, e'',
          finish_raise]⟩)))

theorem execRet_cases (s : State) :
    (s.stack = [] ∧ execRet s = .next (takeFault .emptyStack s)) ∨
    (∃ value rest, s.stack = value :: rest ∧ value.toNat ≤ s.code.length ∧
      execRet s = .next ((s.withStack rest).withIP value.toNat)) ∨
    (∃ value rest, s.stack = value :: rest ∧ s.code.length < value.toNat ∧
      execRet s = .next (takeFault .ipOutOfBounds (s.withStack rest))) := by
  rcases stackPop_cases s with ⟨h, e⟩ | ⟨value, rest, h, e⟩
  · exact .inl ⟨h, by simp [execRet, e]⟩
  · rcases setIP_cases value.toNat (s.withStack rest) with ⟨hl, e'⟩ | ⟨hl, e'⟩
    · exact .inr (.inl ⟨value, rest, h, hl, by
        simp only [execRet, e, Result.andThen_ok, absoluteTarget_eq, e', finish_ok]⟩)
    · exact .inr (.inr ⟨value, rest, h, hl, by
        simp only [execRet, e, Result.andThen_ok, absoluteTarget_eq, e', finish_raise]⟩)

theorem execCje_cases (s : State) :
    (s.stack.length < 3 ∧ execCje s = .next (takeFault .emptyStack (s.withStack []))) ∨
    (∃ offset x y rest, s.stack = offset :: x :: y :: rest ∧ x ≠ y ∧
      execCje s = .next (s.withStack rest)) ∨
    (∃ offset x y rest, s.stack = offset :: x :: y :: rest ∧ x = y ∧
      s.ip + offset.toNat ≤ s.code.length ∧
      execCje s = .next ((s.withStack rest).withIP (s.ip + offset.toNat))) ∨
    (∃ offset x y rest, s.stack = offset :: x :: y :: rest ∧ x = y ∧
      s.code.length < s.ip + offset.toNat ∧
      execCje s = .next (takeFault .ipOutOfBounds (s.withStack rest))) := by
  rcases popThree_cases s with ⟨h, e⟩ | ⟨offset, x, y, rest, h, e⟩
  · exact .inl ⟨h, by simp [execCje, e]⟩
  by_cases hxy : x = y
  · have ht : cjeTaken x y = true := by simp [hxy]
    rcases setIP_cases (s.ip + offset.toNat) (s.withStack rest) with ⟨hl, e'⟩ | ⟨hl, e'⟩
    · exact .inr (.inr (.inl ⟨offset, x, y, rest, h, hxy, hl, by
        simp only [execCje, e, Result.andThen_ok, ht, if_true, relativeTarget_eq, State.withStack_ip, e',
          finish_ok]⟩))
    · exact .inr (.inr (.inr ⟨offset, x, y, rest, h, hxy, hl, by
        simp only [execCje, e, Result.andThen_ok, ht, if_true, relativeTarget_eq, State.withStack_ip, e',
          finish_raise]⟩))
  · exact .inr (.inl ⟨offset, x, y, rest, h, hxy, by simp [execCje, e, hxy]⟩)

theorem execJse_cases (s : State) :
    (s.stack = [] ∧ execJse s = .next (takeFault .emptyStack s)) ∨
    (∃ offset b rest, s.stack = offset :: b :: rest ∧ execJse s = .next (s.withStack (b :: rest))) ∨
    (∃ offset, s.stack = [offset] ∧ s.ip + offset.toNat ≤ s.code.length ∧
      execJse s = .next ((s.withStack []).withIP (s.ip + offset.toNat))) ∨
    (∃ offset, s.stack = [offset] ∧ s.code.length < s.ip + offset.toNat ∧
      execJse s = .next (takeFault .ipOutOfBounds (s.withStack []))) := by
  rcases stackPop_cases s with ⟨h, e⟩ | ⟨offset, rest, h, e⟩
  · exact .inl ⟨h, by simp [execJse, e]⟩
  cases rest with
  | cons b rest => exact .inr (.inl ⟨offset, b, rest, h, by simp [execJse, e]⟩)
  | nil =>
    have ht : jseTaken (s.withStack []) = true := by simp
    rcases setIP_cases (s.ip + offset.toNat) (s.withStack []) with ⟨hl, e'⟩ | ⟨hl, e'⟩
    · exact .inr (.inr (.inl ⟨offset, h, hl, by
        simp only [execJse, e, Result.andThen_ok, ht, if_true, relativeTarget_eq, State.withStack_ip, e',
          finish_ok]⟩))
    · exact .inr (.inr (.inr ⟨offset, h, hl, by
        simp only [execJse, e, Result.andThen_ok, ht, if_true, relativeTarget_eq, State.withStack_ip, e',
          finish_raise]⟩))

/-! ### Stack -/

theorem execPop_cases (s : State) :
    (s.stack = [] ∧ execPop s = .next (takeFault .emptyStack s)) ∨
    (∃ b rest, s.stack = b :: rest ∧ execPop s = .next (s.withStack rest)) := by
  rcases stackPop_cases s with ⟨h, e⟩ | ⟨b, rest, h, e⟩
  · exact .inl ⟨h, by simp [execPop, e]⟩
  · exact .inr ⟨b, rest, h, by simp [execPop, e]⟩

theorem execSwap_cases (index : BitVec 5) (s : State) :
    (s.stack[index.toNat]? = none ∧ execSwap index s = .next (takeFault .indexOutOfBounds s)) ∨
    (∃ b rest x, s.stack = b :: rest ∧ s.stack[index.toNat]? = some x ∧
      execSwap index s = .next
        (s.withStack (if index.toNat = 0 then rest else x :: rest.set (index.toNat - 1) b))) := by
  rcases stackSwap_cases index.toNat s with ⟨h, e⟩ | ⟨b, rest, x, h, hx, e⟩
  · exact .inl ⟨h, by simp [execSwap, immediate, e]⟩
  · exact .inr ⟨b, rest, x, h, hx, by simp only [execSwap, immediate, e, finish_ok]⟩

theorem execLoad_cases (offset : BitVec 6) (s : State) :
    (s.stack[offset.toNat]? = none ∧ execLoad offset s = .next (takeFault .indexOutOfBounds s)) ∨
    (∃ v, s.stack[offset.toNat]? = some v ∧ s.cfg.stackMax = some s.stack.length ∧
      execLoad offset s = .next (takeFault .stackOverflow s)) ∨
    (∃ v, s.stack[offset.toNat]? = some v ∧ s.cfg.stackMax ≠ some s.stack.length ∧
      execLoad offset s = .next (s.withStack (v :: s.stack))) := by
  rcases stackLoad_cases offset.toNat s with ⟨h, e⟩ | ⟨v, h, hm, e⟩ | ⟨v, h, hm, e⟩
  · exact .inl ⟨h, by simp [execLoad, immediate, e]⟩
  · exact .inr (.inl ⟨v, h, hm, by simp [execLoad, immediate, e]⟩)
  · exact .inr (.inr ⟨v, h, hm, by simp [execLoad, immediate, e]⟩)

theorem execPush_cases (value : BitVec 7) (s : State) :
    (s.cfg.stackMax = some s.stack.length ∧ execPush value s = .next (takeFault .stackOverflow s)) ∨
    (s.cfg.stackMax ≠ some s.stack.length ∧
      execPush value s = .next (s.withStack (BitVec.ofNat 8 value.toNat :: s.stack))) := by
  have hv : value.toNat ≤ 255 := by have := value.isLt; omega
  by_cases hm : s.cfg.stackMax = some s.stack.length
  · exact .inl ⟨hm, by simp [execPush, immediate, stackPush_full hv hm]⟩
  · exact .inr ⟨hm, by simp [execPush, immediate, stackPush_room hv hm]⟩

/-! ### The step -/

/-- Everything a step can do. -/
theorem step_cases (s : State) :
    (s.runState ≠ .running ∧ step s = .next s) ∨
    (s.runState = .running ∧ codeAt s s.ip = none ∧ step s = .next (s.withRunState .halted)) ∨
    (∃ b, s.runState = .running ∧ codeAt s s.ip = some b ∧ decode b = .error .unknownOpcode ∧
      step s = .next (takeFault .unknownOpcode (s.withIP (s.ip + 1)))) ∨
    (∃ b i, s.runState = .running ∧ codeAt s s.ip = some b ∧ decode b = .ok i ∧
      step s = exec i (s.withIP (s.ip + 1))) := by
  cases hr : s.runState with
  | unloaded => exact .inl ⟨by simp, by simp [step, processorStep, hr]⟩
  | ready => exact .inl ⟨by simp, by simp [step, processorStep, hr]⟩
  | halted => exact .inl ⟨by simp, by simp [step, processorStep, hr]⟩
  | faulted => exact .inl ⟨by simp, by simp [step, processorStep, hr]⟩
  | running =>
    cases hc : codeAt s s.ip with
    | none => exact .inr (.inl ⟨rfl, rfl, by simp [step, processorStep, hr, loopStep, fetch, hc]⟩)
    | some b =>
      cases hd : decode b with
      | error e =>
        cases e
        exact .inr (.inr (.inl ⟨b, rfl, rfl, hd, by
          simp [step, processorStep, hr, loopStep, fetch, hc, decodeAndExecute, hd]⟩))
      | ok i =>
        exact .inr (.inr (.inr ⟨b, i, rfl, rfl, hd, by
          simp [step, processorStep, hr, loopStep, fetch, hc, decodeAndExecute, hd]⟩))

end Sys2Proof.Machine
end

