-- ==== Sys2Proof/Laws/Memory.lean ====
section
/-! SUPPORT. The code buffer's canonical form as (address, byte) pairs: every buffer has it, so every operation
keeps it, and equal reads mean equal buffers (log 1). -/

namespace Sys2Proof.Machine

/-- The addresses of a buffer are `0 .. LEN-1` in order. -/
theorem Memory.wf_all (m : Memory) : m.wf = true := by
  simp [Memory.wf, Memory.cells, List.map_map, Function.comp_def, List.zipIdx_map_snd, List.range_eq_range']

/-- A pair stands in the buffer exactly when its address reads as its byte. -/
theorem Memory.mem_cells_iff (m : Memory) (a : Nat) (b : Byte) : (a, b) ∈ m.cells ↔ m[a]? = some b := by
  simp [Memory.cells, List.mk_mem_zipIdx_iff_getElem?]

/-- The form holds of the code at reset. -/
theorem Memory.wf_reset : State.reset.code.wf = true := Memory.wf_all _

/-- Two machines whose code reads alike at every offset hold equal code. -/
theorem code_ext {s t : State} (h : ∀ a, codeAt s a = codeAt t a) : s.code = t.code :=
  List.ext_getElem? h

/-- A write keeps the form: the one operation that writes code is `setCode`. -/
theorem setCode_keeps_wf {bytes : List Byte} {s t : State} (_h : setCode bytes s = .ok t) : t.code.wf = true :=
  Memory.wf_all _

/-- Reading after the write: `setCode` stores the sequence whole. -/
theorem codeAt_setCode {bytes : List Byte} {s t : State} (h : setCode bytes s = .ok t) (a : Nat) :
    codeAt t a = bytes[a]? := by
  unfold setCode at h
  split at h
  · cases h
  · cases h; rfl

/-- The byte placed for a fetch is the byte fetched. -/
theorem fetch_placeInstruction (s : State) (b : Byte) :
    codeAt (placeInstruction s b) s.ip = some b := by
  have hl : (s.code.take s.ip ++ List.replicate (s.ip - s.code.length) 0).length = s.ip := by
    simp only [List.length_append, List.length_take, List.length_replicate]
    omega
  have hat : (s.code.take s.ip ++ List.replicate (s.ip - s.code.length) 0 ++
      b :: s.code.drop (s.ip + 1))[s.ip]? = some b := by
    rw [List.getElem?_append_right (by omega), hl]
    simp
  simpa only [codeAt, placeInstruction, List.append_assoc, List.singleton_append] using hat

end Sys2Proof.Machine
end

