-- ==== Sys2Proof/Laws/Passive.lean ====
section
/-! SUPPORT. Changes of the state that the instructions neither see nor disturb: one lemma for each shared operation
says that it commutes with such a change, and so each meaning built from them does. -/

namespace Sys2Proof.Machine

/-- The result with another state in it. -/
def Result.mapState {α : Type} (f : State → State) : Result α → Result α
  | .ok a s => .ok a (f s)
  | .raise k s => .raise k (f s)
  | .wait s => .wait (f s)

/-- The outcome with another next state. -/
def mapNext (f : State → State) : Host.Outcome State Fault Refusal → Host.Outcome State Fault Refusal
  | .next s => .next (f s)
  | .fault r => .fault r
  | .refused r => .refused r

/-- A change that keeps what the stack primitives and `setIP` look at, and commutes with what they write. -/
structure Passive (f : State → State) : Prop where
  cfg : ∀ s, (f s).cfg = s.cfg
  stack : ∀ s, (f s).stack = s.stack
  ip : ∀ s, (f s).ip = s.ip
  len : ∀ s, (f s).len = s.len
  withStack : ∀ s v, f (s.withStack v) = (f s).withStack v
  withIP : ∀ s v, f (s.withIP v) = (f s).withIP v
  takeFault : ∀ s k, f (takeFault k s) = Machine.takeFault k (f s)

/-- Another record of output is a passive change. -/
theorem passive_withOutput (o : List Byte) : Passive (fun s => s.withOutput o) :=
  ⟨fun _ => rfl, fun _ => rfl, fun _ => rfl, fun _ => rfl, fun _ _ => rfl, fun _ _ => rfl, fun _ _ => rfl⟩

/-- More input behind what is there is a passive change. -/
theorem passive_moreInput (more : List Byte) : Passive (fun s => s.withInput (s.input ++ more)) :=
  ⟨fun _ => rfl, fun _ => rfl, fun _ => rfl, fun _ => rfl, fun _ _ => rfl, fun _ _ => rfl, fun _ _ => rfl⟩

section
variable {f : State → State} (hf : Passive f)
include hf

theorem finish_passive (r : Result Unit) : finish (r.mapState f) = mapNext f (finish r) := by
  cases r with
  | ok u s => rfl
  | raise k s => simp [Result.mapState, mapNext, hf.takeFault]
  | wait s => simp [Result.mapState, mapNext, awaitStream, hf.withIP, hf.ip]

omit hf in
theorem andThen_passive {α β : Type} (r : Result α) (g : α → State → Result β)
    (hg : ∀ a s, g a (f s) = (g a s).mapState f) :
    (r.mapState f).andThen g = (r.andThen g).mapState f := by
  cases r <;> simp [Result.mapState, Result.andThen, hg]

theorem stackPush_passive (v : Nat) (s : State) : stackPush v (f s) = (stackPush v s).mapState f := by
  have hsize : (f s).size = s.size := congrArg List.length (hf.stack s)
  simp only [stackPush, hf.cfg, hsize, hf.stack]
  split
  · rfl
  · split
    · rfl
    · simp [Result.mapState, hf.withStack]

theorem stackPop_passive (s : State) : stackPop (f s) = (stackPop s).mapState f := by
  simp only [stackPop, hf.stack]
  cases s.stack with
  | nil => rfl
  | cons b rest => simp [Result.mapState, hf.withStack]

theorem stackLoad_passive (offset : Nat) (s : State) :
    stackLoad offset (f s) = (stackLoad offset s).mapState f := by
  simp only [stackLoad, hf.stack]
  cases s.stack[offset]? with
  | none => rfl
  | some v => exact stackPush_passive hf _ _

theorem stackSwap_passive (index : Nat) (s : State) :
    stackSwap index (f s) = (stackSwap index s).mapState f := by
  rcases stackSwap_cases index s with ⟨h, e⟩ | ⟨b, rest, x, hs, h, e⟩
  · rw [stackSwap_none (by rw [hf.stack]; exact h), e]; rfl
  · rw [stackSwap_some (by rw [hf.stack]; exact hs) (by rw [hf.stack]; exact h), e]
    simp [Result.mapState, hf.withStack]

theorem setIP_passive (v : Int) (s : State) : setIP v (f s) = (setIP v s).mapState f := by
  simp only [setIP, hf.len]
  split
  · rfl
  · simp [Result.mapState, hf.withIP]

omit hf in
theorem raiseOr_passive {α : Type} (e : Except FaultKind α) (s : State) :
    raiseOr e (f s) = (raiseOr e s).mapState f := by
  cases e <;> rfl

theorem popTwo_passive (s : State) : popTwo (f s) = (popTwo s).mapState f := by
  simp only [popTwo, stackPop_passive hf]
  refine andThen_passive _ _ fun a s => ?_
  rw [stackPop_passive hf]
  exact andThen_passive _ _ fun b s => rfl

theorem popThree_passive (s : State) : popThree (f s) = (popThree s).mapState f := by
  simp only [popThree, stackPop_passive hf]
  refine andThen_passive _ _ fun a s => ?_
  rw [popTwo_passive hf]
  exact andThen_passive _ _ fun p s => rfl

theorem relativeTarget_passive (offset : Byte) (s : State) :
    relativeTarget offset (f s) = relativeTarget offset s := by
  simp [relativeTarget, hf.ip]

theorem jseTaken_passive (s : State) : jseTaken (f s) = jseTaken s := by
  simp [jseTaken, stackIsEmpty, hf.stack]

theorem binaryOperation_passive (g : Byte → Byte → Byte) (s : State) :
    binaryOperation g (f s) = mapNext f (binaryOperation g s) := by
  simp only [binaryOperation, ← finish_passive hf, popTwo_passive hf]
  exact congrArg finish (andThen_passive _ _ fun p s => stackPush_passive hf _ _)

theorem execDivide_passive (s : State) : execDivide (f s) = mapNext f (execDivide s) := by
  simp only [execDivide, ← finish_passive hf, popTwo_passive hf]
  refine congrArg finish (andThen_passive _ _ fun p s => ?_)
  rw [raiseOr_passive]
  refine andThen_passive _ _ fun qr s => ?_
  rw [stackPush_passive hf]
  exact andThen_passive _ _ fun _ s => stackPush_passive hf _ _

theorem execJump_passive (s : State) : execJump (f s) = mapNext f (execJump s) := by
  simp only [execJump, ← finish_passive hf, stackPop_passive hf]
  refine congrArg finish (andThen_passive _ _ fun offset s => ?_)
  rw [relativeTarget_passive hf, setIP_passive hf]

theorem execCall_passive (s : State) : execCall (f s) = mapNext f (execCall s) := by
  simp only [execCall, ← finish_passive hf, stackPop_passive hf]
  refine congrArg finish (andThen_passive _ _ fun offset s => ?_)
  rw [hf.ip, stackPush_passive hf]
  refine andThen_passive _ _ fun _ s => ?_
  rw [relativeTarget_passive hf, setIP_passive hf]

theorem execRet_passive (s : State) : execRet (f s) = mapNext f (execRet s) := by
  simp only [execRet, ← finish_passive hf, stackPop_passive hf]
  exact congrArg finish (andThen_passive _ _ fun value s => setIP_passive hf _ _)

theorem execCje_passive (s : State) : execCje (f s) = mapNext f (execCje s) := by
  simp only [execCje, ← finish_passive hf, popThree_passive hf]
  refine congrArg finish (andThen_passive _ _ fun p s => ?_)
  split
  · rw [relativeTarget_passive hf, setIP_passive hf]
  · rfl

theorem execJse_passive (s : State) : execJse (f s) = mapNext f (execJse s) := by
  simp only [execJse, ← finish_passive hf, stackPop_passive hf]
  refine congrArg finish (andThen_passive _ _ fun offset s => ?_)
  rw [jseTaken_passive hf]
  split
  · rw [relativeTarget_passive hf, setIP_passive hf]
  · rfl

theorem execPop_passive (s : State) : execPop (f s) = mapNext f (execPop s) := by
  simp only [execPop, ← finish_passive hf, stackPop_passive hf]
  exact congrArg finish (andThen_passive _ _ fun _ s => rfl)

theorem execSwap_passive (index : BitVec 5) (s : State) :
    execSwap index (f s) = mapNext f (execSwap index s) := by
  simp only [execSwap, ← finish_passive hf, stackSwap_passive hf]

theorem execLoad_passive (offset : BitVec 6) (s : State) :
    execLoad offset (f s) = mapNext f (execLoad offset s) := by
  simp only [execLoad, ← finish_passive hf, stackLoad_passive hf]

theorem execPush_passive (value : BitVec 7) (s : State) :
    execPush value (f s) = mapNext f (execPush value s) := by
  simp only [execPush, ← finish_passive hf, stackPush_passive hf]

/-- read commutes with a passive change that its call of the input stream commutes with. -/
theorem execRead_passive (s : State) (hr : readByte (f s) = (readByte s).mapState f) :
    execRead (f s) = mapNext f (execRead s) := by
  simp only [execRead, ← finish_passive hf, hr]
  exact congrArg finish (andThen_passive _ _ fun v s => stackPush_passive hf _ _)

/-- write commutes with a passive change that its call of the output stream commutes with. -/
theorem execWrite_passive (s : State) (hw : ∀ v s, writeChar v (f s) = (writeChar v s).mapState f) :
    execWrite (f s) = mapNext f (execWrite s) := by
  simp only [execWrite, ← finish_passive hf, stackPop_passive hf]
  exact congrArg finish (andThen_passive _ _ fun v s => hw v s)

/-- Every instruction but the two of the streams commutes with every passive change. -/
theorem exec_passive (i : Instr) (s : State) (hread : i ≠ .read) (hwrite : i ≠ .write) :
    exec i (f s) = mapNext f (exec i s) := by
  cases i with
  | add => exact binaryOperation_passive hf aluAdd s
  | subtract => exact binaryOperation_passive hf aluSubtract s
  | divide => exact execDivide_passive hf s
  | multiply => exact binaryOperation_passive hf aluMultiply s
  | read => exact absurd rfl hread
  | write => exact absurd rfl hwrite
  | jump => exact execJump_passive hf s
  | call => exact execCall_passive hf s
  | ret => exact execRet_passive hf s
  | cje => exact execCje_passive hf s
  | jse => exact execJse_passive hf s
  | pop => exact execPop_passive hf s
  | swap index => exact execSwap_passive hf index s
  | load offset => exact execLoad_passive hf offset s
  | push value => exact execPush_passive hf value s

end

end Sys2Proof.Machine
end

