-- ==== Sys2Proof/Laws/PerInstr.lean ====
section
/-! SUPPORT. Statements for all instructions, made per instruction: the encoder's byte lies in the row of
spec/opcode_table.json that stands for the instruction. -/

namespace Sys2Proof.Laws.OpcodeRow

/-- One row of spec/opcode_table.json: a byte selects it when `(b AND mask) = match` and `b` is not excluded
(30_encoding.md, opening words). -/
structure Row where
  value : Byte
  mask : Byte
  exclude : List Byte

/-- The row of an instruction, as spec/opcode_table.json gives it. -/
def row : Instr → Row
  | .add => ⟨0x00, 0xFF, []⟩
  | .subtract => ⟨0x01, 0xFF, []⟩
  | .divide => ⟨0x02, 0xFF, []⟩
  | .multiply => ⟨0x03, 0xFF, []⟩
  | .read => ⟨0x08, 0xFF, []⟩
  | .write => ⟨0x09, 0xFF, []⟩
  | .jump => ⟨0x10, 0xFF, []⟩
  | .call => ⟨0x11, 0xFF, []⟩
  | .ret => ⟨0x12, 0xFF, []⟩
  | .cje => ⟨0x14, 0xFF, []⟩
  | .jse => ⟨0x18, 0xFF, []⟩
  | .pop => ⟨0x20, 0xFF, []⟩
  | .swap _ => ⟨0x20, 0xE0, [0x20]⟩
  | .load _ => ⟨0x40, 0xC0, [0x7F]⟩
  | .push _ => ⟨0x80, 0x80, []⟩

/-- A well-formed instruction's byte selects its row. -/
def Statement (i : Instr) : Prop :=
  i.wellFormed = true → encode i &&& (row i).mask = (row i).value ∧ encode i ∉ (row i).exclude

theorem add : Statement .add := by unfold Statement; decide
theorem subtract : Statement .subtract := by unfold Statement; decide
theorem divide : Statement .divide := by unfold Statement; decide
theorem multiply : Statement .multiply := by unfold Statement; decide
theorem read : Statement .read := by unfold Statement; decide
theorem write : Statement .write := by unfold Statement; decide
theorem jump : Statement .jump := by unfold Statement; decide
theorem call : Statement .call := by unfold Statement; decide
theorem ret : Statement .ret := by unfold Statement; decide
theorem cje : Statement .cje := by unfold Statement; decide
theorem jse : Statement .jse := by unfold Statement; decide
theorem pop : Statement .pop := by unfold Statement; decide
theorem swap (index : BitVec 5) : Statement (.swap index) := by
  unfold Statement; revert index; decide
theorem load (offset : BitVec 6) : Statement (.load offset) := by
  unfold Statement; revert offset; decide
theorem push (value : BitVec 7) : Statement (.push value) := by
  unfold Statement; revert value; decide

end Sys2Proof.Laws.OpcodeRow
end

