-- ==== Sys2Proof/Laws/Ports.lean ====
section
/-! SUPPORT. The small lemmas of the ports: what the pins' stream leaves alone, and everything a load beat, a
step and a cycle at the ports can do. -/

namespace Sys2Proof.Machine

@[simp] theorem offerInput_cfg (p : PortInputs) (s : State) : (offerInput p s).cfg = s.cfg := rfl
@[simp] theorem offerInput_code (p : PortInputs) (s : State) : (offerInput p s).code = s.code := rfl
@[simp] theorem offerInput_codeSet (p : PortInputs) (s : State) : (offerInput p s).codeSet = s.codeSet := rfl
@[simp] theorem offerInput_stack (p : PortInputs) (s : State) : (offerInput p s).stack = s.stack := rfl
@[simp] theorem offerInput_ip (p : PortInputs) (s : State) : (offerInput p s).ip = s.ip := rfl
@[simp] theorem offerInput_runState (p : PortInputs) (s : State) : (offerInput p s).runState = s.runState := rfl
@[simp] theorem offerInput_fault (p : PortInputs) (s : State) : (offerInput p s).fault = s.fault := rfl
@[simp] theorem offerInput_input (p : PortInputs) (s : State) : (offerInput p s).input = offeredInput p := rfl
@[simp] theorem offerInput_inputEnded (p : PortInputs) (s : State) : (offerInput p s).inputEnded = p.inEos := rfl
@[simp] theorem offerInput_output (p : PortInputs) (s : State) : (offerInput p s).output = s.output := rfl

@[simp] theorem codeAt_offerInput (p : PortInputs) (s : State) (a : Nat) :
    codeAt (offerInput p s) a = codeAt s a := rfl
@[simp] theorem currentInstr_offerInput (p : PortInputs) (s : State) :
    currentInstr (offerInput p s) = currentInstr s := rfl
@[simp] theorem portInReady_offerInput (p : PortInputs) (s : State) :
    portInReady p (offerInput p s) = portInReady p s := rfl
@[simp] theorem portOut_offerInput (p : PortInputs) (s : State) : portOut p (offerInput p s) = portOut p s := rfl

/-- The current instruction is the one the step decodes. -/
theorem currentInstr_eq_some {s : State} {i : Instr} :
    currentInstr s = some i ↔ s.runState = .running ∧ ∃ b, codeAt s s.ip = some b ∧ decode b = .ok i := by
  unfold currentInstr
  split
  next b hr hc =>
    cases hd : decode b <;> simp [hr, hc, hd]
  next h =>
    simp only [reduceCtorEq, false_iff]
    rintro ⟨hr, b, hc, -⟩
    exact h b hr hc

/-- The step runs the current instruction. -/
theorem step_currentInstr {s : State} {i : Instr} (h : currentInstr s = some i) :
    step s = exec i (s.withIP (s.ip + 1)) := by
  obtain ⟨hr, b, hc, hd⟩ := currentInstr_eq_some.mp h
  rcases step_cases s with ⟨hn, -⟩ | ⟨-, hn, -⟩ | ⟨b', -, hc', hd', -⟩ | ⟨b', i', -, hc', hd', e⟩
  · exact absurd hr hn
  · simp [hc] at hn
  · obtain rfl : b = b' := by simpa [hc] using hc'
    simp [hd] at hd'
  · obtain rfl : b = b' := by simpa [hc] using hc'
    obtain rfl : i = i' := by simpa [hd] using hd'
    exact e

/-- A value is presented exactly by a write instruction with an element to pop, outside a reset. -/
theorem portOut_eq_some {p : PortInputs} {s : State} {v : Byte} :
    portOut p s = some v ↔ p.rst = false ∧ currentInstr s = some .write ∧ s.stack.head? = some v := by
  unfold portOut
  split <;> rename_i h <;> simp_all

/-- Everything a step at the ports can do. -/
theorem portStep_cases (p : PortInputs) (s : State) :
    (portOutValid p s = true ∧ p.outReady = false ∧ portStep p s = .next (offerInput p s)) ∨
    ((portOutValid p s = false ∨ p.outReady = true) ∧ portStep p s = step (offerInput p s)) := by
  cases hv : portOutValid p s <;> cases hr : p.outReady <;> simp [portStep, hv, hr]

/-- Everything a load beat that is taken can do. -/
theorem takeBeat_cases (beat : LoadBeat) (q : PortState) :
    (beat.empty = true ∧ q.burst = [] ∧ takeBeat beat q = portLoad [] q) ∨
    (beat.empty = true ∧ q.burst ≠ [] ∧ takeBeat beat q = .refused .emptyBeatInBurst) ∨
    (beat.empty = false ∧ beat.last = true ∧ takeBeat beat q = portLoad (q.burst ++ [beat.data]) q) ∨
    (beat.empty = false ∧ beat.last = false ∧
      takeBeat beat q = .next { q with burst := q.burst ++ [beat.data] }) := by
  cases he : beat.empty <;> cases hl : beat.last <;> cases hb : q.burst <;> simp [takeBeat, he, hl, hb]

/-- Everything the load handshake can do. -/
theorem portBeat_cases (p : PortInputs) (q : PortState) :
    ((p.load.valid && portLoadReady p) = false ∧ portBeat p q = .next q) ∨
    ((p.load.valid && portLoadReady p) = true ∧ portBeat p q = takeBeat p.load q) := by
  cases h : p.load.valid && portLoadReady p <;> simp [portBeat, h]

/-- Everything a cycle that answers a next state can do. -/
theorem portCycle_cases {p : PortInputs} {q q' : PortState} (h : portCycle p q = .next q') :
    (p.rst = true ∧ q' = { core := offerInput p (hostReset q.core), burst := [], loadErr := false }) ∨
    (p.rst = false ∧ ∃ s b, portStep p q.core = .next s ∧ portBeat p { q with core := s } = .next b ∧
      q' = { b with core := portRun p b.core }) := by
  unfold portCycle at h
  split at h
  next hr => cases h; exact .inl ⟨hr, rfl⟩
  next hr =>
    refine .inr ⟨by simpa using hr, ?_⟩
    split at h <;> try cases h
    next s hs =>
      split at h <;> cases h
      next b hb => exact ⟨s, b, hs, hb, rfl⟩

/-- What a load that is answered leaves alone: the CORE's streams, and the whole of a run in progress. -/
theorem hostLoad_next {bytes : List Byte} {s t : State} {r : HostReply} (h : hostLoad bytes s = .next (r, t)) :
    t.input = s.input ∧ t.output = s.output ∧ (s.runState = .running → t = s) := by
  cases hr : s.runState <;> simp only [hostLoad, hr] at h
  case unloaded =>
    refine (fun hio : t.input = s.input ∧ t.output = s.output => ⟨hio.1, hio.2, by simp⟩) ?_
    cases hs : s.codeSet <;> simp only [acceptLoad, setCode, hs, if_true, Bool.false_eq_true, if_false] at h
    · split at h <;> cases h
      exact ⟨rfl, rfl⟩
    · cases h; exact ⟨rfl, rfl⟩
  case ready => cases h; exact ⟨rfl, rfl, fun _ => rfl⟩
  case running => cases h; exact ⟨rfl, rfl, fun _ => rfl⟩
  all_goals
    split at h <;> cases h
    exact ⟨rfl, rfl, fun _ => rfl⟩

/-- A complete burst leaves the port empty, the streams alone, and a run in progress alone. -/
theorem portLoad_next {bytes : List Byte} {q b : PortState} (h : portLoad bytes q = .next b) :
    b.burst = [] ∧ b.core.input = q.core.input ∧ b.core.output = q.core.output ∧
      (q.core.runState = .running → b.core = q.core) := by
  unfold portLoad at h
  split at h <;> cases h
  next r s hs =>
    obtain ⟨h1, h2, h3⟩ := hostLoad_next hs
    exact ⟨rfl, h1, h2, h3⟩

/-- What the load handshake leaves alone. -/
theorem portBeat_next {p : PortInputs} {q b : PortState} (h : portBeat p q = .next b) :
    b.core.input = q.core.input ∧ b.core.output = q.core.output ∧
      (q.core.runState = .running → b.core = q.core) := by
  rcases portBeat_cases p q with ⟨-, e⟩ | ⟨-, e⟩ <;> rw [e] at h
  · cases h; exact ⟨rfl, rfl, fun _ => rfl⟩
  · rcases takeBeat_cases p.load q with ⟨-, -, e⟩ | ⟨-, -, e⟩ | ⟨-, -, e⟩ | ⟨-, -, e⟩ <;> rw [e] at h
    · exact (portLoad_next h).2
    · cases h
    · exact (portLoad_next h).2
    · cases h; exact ⟨rfl, rfl, fun _ => rfl⟩

/-- What the `run` pin leaves alone. -/
theorem portRun_frame (p : PortInputs) (s : State) :
    (portRun p s).input = s.input ∧ (portRun p s).output = s.output ∧
      (s.runState = .running → portRun p s = s) := by
  unfold portRun hostRun startRun
  split
  · split <;> try split
    all_goals simp_all [takeFault]
  · simp

end Sys2Proof.Machine
end

