-- ==== Sys2Proof/Tests/Slice0.lean ====
section
/-! SUPPORT. The model's own tests: the ill-formed terms WellFormed refuses, the bytes of spec 30_encoding.md written
out bit by bit, at most two vectors of spec 95_test_vectors.md for each instruction, the host interface, and for each
statement of Certificates/Slice0/Obligations.lean concrete values that meet its hypotheses, clause by clause. -/

namespace Sys2Proof.Tests

open Sys2Proof Sys2Proof.Machine

/-! ### Helpers -/

/-- A RUNNING machine with this code and stack, at its first byte. -/
def machine (code stack : List Byte) : State :=
  { State.reset with code := code, codeSet := true, stack := stack, runState := .running }

/-- The same at another instruction pointer. -/
def machineAt (ip : Nat) (code stack : List Byte) : State := { machine code stack with ip := ip }

/-- A machine whose stack holds at most `m` elements. -/
def limited (m : Nat) (s : State) : State := { s with cfg := { stackMax := some m, codeMax := none } }

/-- The stack, `IP` and `FAULT` of a next state. -/
def after : Host.Outcome State Fault Refusal → Option (List Byte × Nat × Option FaultKind)
  | .next s => some (s.stack, s.ip, s.fault)
  | .fault _ => none
  | .refused _ => none

/-- The state after an event, if it was taken or refused with a reply. -/
def answered : HostAnswer → Option (HostReply × State)
  | .next p => some p
  | .fault _ => none
  | .refused _ => none

/-! ### WellFormed: an ill-formed term for each check -/

/-- Index 0 of swap has no byte of its own: `0x20` is pop (R64, R73). -/
theorem test_swap0_is_ill_formed : (Instr.swap 0).wellFormed = false := by decide

/-- Offset 63 of load has no byte: `0x7F` is illegal (R64, R73). -/
theorem test_load63_is_ill_formed : (Instr.load 63).wellFormed = false := by decide

/-! ### Decoding: words written out from R61, R63 and R64 -/

theorem test_decode_arithmetic :
    decode 0b00000000 = .ok .add ∧ decode 0b00000001 = .ok .subtract ∧
    decode 0b00000010 = .ok .divide ∧ decode 0b00000011 = .ok .multiply := by decide

theorem test_decode_io : decode 0b00001000 = .ok .read ∧ decode 0b00001001 = .ok .write := by decide

theorem test_decode_control :
    decode 0b00010000 = .ok .jump ∧ decode 0b00010001 = .ok .call ∧ decode 0b00010010 = .ok .ret ∧
    decode 0b00010100 = .ok .cje ∧ decode 0b00011000 = .ok .jse := by decide

/-- `0x20` is pop, not swap with index 0 (vector E21). -/
theorem test_decode_pop_before_swap : decode 0b00100000 = .ok .pop := by decide

/-- `001iiiii`, `01ffffff`, `1vvvvvvv` at both ends of each range (vectors E22 to E31). -/
theorem test_decode_ranges :
    decode 0b00100001 = .ok (.swap 0b00001) ∧ decode 0b00111111 = .ok (.swap 0b11111) ∧
    decode 0b01000000 = .ok (.load 0b000000) ∧ decode 0b01111110 = .ok (.load 0b111110) ∧
    decode 0b10000000 = .ok (.push 0b0000000) ∧ decode 0b11111111 = .ok (.push 0b1111111) := by decide

/-- `0x7F` is not load with offset 63 (vector E27). -/
theorem test_decode_7F_is_illegal : decode 0b01111111 = .error .unknownOpcode := by decide

/-- The encoder writes the bytes of R73. -/
theorem test_encode : encode .cje = 0x14 ∧ encode (.swap 1) = 0x21 ∧ encode (.load 2) = 0x42 ∧
    encode (.push 5) = 0x85 := by decide

/-! ### Vectors of 95_test_vectors.md -/

/-- M2: the element below is untouched. -/
theorem test_add_M2 : after (step (machine [0x00] [200, 200, 7])) = some ([144, 7], 1, none) := by decide
/-- M3: the first pop succeeded. -/
theorem test_add_M3 : after (step (machine [0x00] [5])) = some ([], 1, some .emptyStack) := by decide
/-- M5: head minus second. -/
theorem test_subtract_M5 : after (step (machine [0x01] [5, 10])) = some ([251], 1, none) := by decide
/-- M11: remainder on top. -/
theorem test_divide_M11 : after (step (machine [0x02] [42, 10])) = some ([2, 4], 1, none) := by decide
/-- M14: both operands popped. -/
theorem test_divide_M14 : after (step (machine [0x02] [5, 0, 9])) = some ([9], 1, some .divisionByZero) := by
  decide
/-- M8. -/
theorem test_multiply_M8 : after (step (machine [0x03] [100, 100])) = some ([16], 1, none) := by decide
/-- I1: the byte is pushed as it is. -/
theorem test_read_I1 :
    after (step ((machine [0x08] []).withInput [42])) = some ([42], 1, none) := by decide
/-- I3: the stream has ended. -/
theorem test_read_I3 :
    after (step { machine [0x08] [] with inputEnded := true }) = some ([], 1, some .inputEndOfStream) := by decide
/-- I8: a write appends and the second, on an empty stack, writes nothing. -/
theorem test_write_I8 :
    (match step (machine [0x09] [72]) with | .next s => s.output | _ => []) = [72] := by decide
/-- I6. -/
theorem test_write_I6 : after (step (machine [0x09] [])) = some ([], 1, some .emptyStack) := by decide
/-- K3: the target `LEN` is legal. -/
theorem test_jump_K3 : after (step (machineAt 1 [0x81, 0x10, 0x80] [1])) = some ([], 3, none) := by decide
/-- K4: the target `LEN + 1` is not, and `IP` keeps the post-increment value. -/
theorem test_jump_K4 :
    after (step (machineAt 1 [0x82, 0x10, 0x80] [2])) = some ([], 2, some .ipOutOfBounds) := by decide
/-- K7: the return address stays pushed. -/
theorem test_call_K7 :
    after (step (machineAt 1 [0x81, 0x11] [1])) = some ([2], 2, some .ipOutOfBounds) := by decide
/-- K21: a call at address 255 cannot push its return address. -/
theorem test_call_K21 :
    after (step (machineAt 255 (List.replicate 255 0x80 ++ [0x11]) [0])) =
      some ([], 256, some .valueOutOfRange) := by decide
/-- K12: ret goes backward. -/
theorem test_ret_K12 : after (step (machineAt 1 [0x80, 0x12] [0])) = some ([], 0, none) := by decide
/-- K10. -/
theorem test_ret_K10 : after (step (machineAt 1 [0x83, 0x12] [3])) = some ([], 2, some .ipOutOfBounds) := by
  decide
/-- K13: not taken, so the offset is not checked. -/
theorem test_cje_K13 :
    after (step (machineAt 3 [0x81, 0x82, 0xFF, 0x14] [127, 2, 1])) = some ([], 4, none) := by decide
/-- K15: two elements are popped before the third pop faults. -/
theorem test_cje_K15 : after (step (machineAt 2 [0x81, 0x81, 0x14] [1, 1])) =
    some ([], 3, some .emptyStack) := by decide
/-- K17: an element is left, so the branch is not taken. -/
theorem test_jse_K17 : after (step (machineAt 2 [0x81, 0xFF, 0x18] [127, 1])) = some ([1], 3, none) := by decide
/-- K18: taken, out of bounds. -/
theorem test_jse_K18 : after (step (machineAt 1 [0xFF, 0x18] [127])) = some ([], 2, some .ipOutOfBounds) := by
  decide
/-- T2: the kind on the empty stack is EmptyStack. -/
theorem test_pop_T2 : after (step (machine [0x20] [])) = some ([], 1, some .emptyStack) := by decide
/-- T6: positions 1 and 3 untouched. -/
theorem test_swap_T6 : after (step (machine [0x22] [1, 2, 3, 4])) = some ([3, 2, 1, 4], 1, none) := by decide
/-- T5: the kind on the empty stack is IndexOutOfBounds. -/
theorem test_swap_T5 : after (step (machine [0x21] [])) = some ([], 1, some .indexOutOfBounds) := by decide
/-- T9. -/
theorem test_load_T9 : after (step (machine [0x42] [3, 2, 1])) = some ([1, 3, 2, 1], 1, none) := by decide
/-- T12: `offset = size`. -/
theorem test_load_T12 : after (step (machine [0x42] [3, 2])) = some ([3, 2], 1, some .indexOutOfBounds) := by
  decide
/-- T14: the byte 0xFF pushes 127. -/
theorem test_push_T14 : after (step (machine [0xFF] [4])) = some ([127, 4], 1, none) := by decide
/-- A push on a full stack (R46). -/
theorem test_push_full : after (step (limited 1 (machine [0xFF] [4]))) = some ([4], 1, some .stackOverflow) := by
  decide
/-- L5: an illegal byte, after the increment. -/
theorem test_illegal_L5 : after (step (machine [0x7F] [])) = some ([], 1, some .unknownOpcode) := by decide
/-- L7: the guard is false at `IP = LEN`. -/
theorem test_halts_L7 :
    (match step (machineAt 1 [0x80] [0]) with | .next s => s.runState | _ => .running) = .halted := by decide
/-- T15, T16: the primitive swap with index 0. -/
theorem test_swap0_primitive :
    (match stackSwap 0 (machine [] [5, 6]) with | .ok _ s => s.stack | _ => []) = [6] ∧
    (match stackSwap 0 (machine [] []) with | .raise k _ => some k | _ => none) = some .indexOutOfBounds := by
  decide

/-! ### The host interface -/

/-- L1: a run without a load. -/
theorem test_run_L1 : (hostRun State.reset).fault = some .noCodeLoaded ∧ (hostRun State.reset).ip = 0 := by decide
/-- L3: an empty load counts. -/
theorem test_load_L3 :
    (answered (hostEvent (.load []) State.reset)).map
      (fun p => (p.2.codeSet, answered (hostEvent (.load [0x80]) p.2) == some (.loadRefused .memoryPermissionsError, p.2)))
      = some (true, true) := by decide
/-- L4: load, then run: the first step runs the byte loaded. -/
theorem test_load_run_L4 :
    (answered (hostEvent (.load [0x80]) State.reset)).map (fun p => after (step (hostRun p.2))) =
      some (some ([0], 1, none)) := by decide
/-- A load burst of two beats takes effect at its last one, and the empty load at its one beat (R148). -/
theorem test_burst :
    takeBeat ⟨true, 0x81, false, false⟩ ⟨State.reset, [], false⟩ = .next ⟨State.reset, [0x81], false⟩ ∧
    takeBeat ⟨true, 0x20, true, false⟩ ⟨State.reset, [0x81], false⟩ =
      .next ⟨{ State.reset with code := [0x81, 0x20], codeSet := true, runState := .ready }, [], false⟩ ∧
    takeBeat ⟨true, 0x20, true, true⟩ ⟨State.reset, [], false⟩ =
      .next ⟨{ State.reset with codeSet := true, runState := .ready }, [], false⟩ := ⟨rfl, rfl, rfl⟩
/-- Pins that offer the input byte 7, with `rst`, `run` and `out_ready` as given. -/
def pins (rst run outReady : Bool) : PortInputs :=
  { rst := rst, load := ⟨false, 0, false, false⟩, run := run, inValid := true, inData := 7, inEos := false,
    outReady := outReady, dbgAddr := 0, dbgSidx := 0 }
/-- The same pins with a load beat. -/
def pinsWithBeat (beat : LoadBeat) : PortInputs := { pins false false true with load := beat }
/-- `in_ready` at a read, whether or not a byte is there, but not under `rst`; `out_valid` while a write presents its
value (R148). -/
theorem test_stream_ports :
    portInReady (pins false false true) (machine [0x08] []) = true ∧
    portInReady (pins false false true) ((machine [0x08] []).withInput [1]) = true ∧
    portInReady (pins true false true) (machine [0x08] []) = false ∧
    portOut (pins false false false) (machine [0x09] [7]) = some 7 ∧
    portOut (pins false false true) (machine [0x08] [7]) = none := by decide
/-- A run that a cycle starts consumes nothing in that cycle, in which `in_ready` is 0; a reset consumes nothing
(R148). -/
theorem test_run_cycle :
    (portInReady (pins false true true)
        { State.reset with code := [0x08], codeSet := true, runState := .ready } = false ∧
      portCycle (pins false true true)
          ⟨{ State.reset with code := [0x08], codeSet := true, runState := .ready }, [], false⟩ =
        .next ⟨(machine [0x08] []).withInput [7], [], false⟩) ∧
    portCycle (pins true true true) ⟨machine [0x08] [], [], false⟩ =
      .next ⟨State.reset.withInput [7], [], false⟩ := ⟨⟨rfl, rfl⟩, rfl⟩
/-- A read that finds neither a byte nor an end waits (I4). -/
theorem test_read_waits_I4 : after (step (machine [0x08] [])) = some ([], 0, none) := by decide
/-- The word placed for the next fetch is the one that runs, from reset and behind a longer code. -/
theorem test_withFetchWord :
    after (step (State.reset.withFetchWord 8 0x85)) = some ([5], 1, none) ∧
    after (step ((machineAt 1 [0x80, 0x7F, 0x80] []).withFetchWord 8 0x85)) = some ([5], 2, none) := by decide
/-- P2 as a listing, and an illegal byte (R72). -/
theorem test_listing : listing [0x81, 0x20, 0x7F] = ["0: push(1)", "1: pop", "2: ?? 0x7F"] := by decide

/-! ### Witnesses: values that meet the hypotheses of the statements, clause by clause -/

/-- The machine `machine` meets the invariant, with `IP` anywhere in the code. -/
theorem machineAt_inv {ip : Nat} {code stack : List Byte} (hne : code ≠ []) (hip : ip ≤ code.length) :
    Inv (machineAt ip code stack) :=
  ⟨hip, by simp [machineAt, machine], rfl, rfl,
    by simpa [RunStateAgrees, machineAt, machine, State.len, State.reset] using List.length_pos_iff.mpr hne⟩

theorem witness_DecodeInvertsEncode :
    (Instr.swap 31).wellFormed = true ∧ (Instr.load 62).wellFormed = true ∧ Instr.cje.wellFormed = true := by
  decide

theorem witness_EncodeInvertsDecode : decode 0x3F = .ok (.swap 31) ∧ decode 0x80 = .ok (.push 0) := by decide

theorem witness_IllegalBytesFault :
    (machine [0x7F] []).runState = .running ∧ codeAt (machine [0x7F] []) 0 = some 0x7F ∧
    (0x7F : Byte) ∈ [(0x04 : Byte), 0x05, 0x06, 0x07, 0x0A, 0x0B, 0x0C, 0x0D, 0x0E, 0x0F, 0x13, 0x15, 0x16, 0x17,
      0x19, 0x1A, 0x1B, 0x1C, 0x1D, 0x1E, 0x1F, 0x7F] := by decide

theorem witness_AssembleGivesEncoding :
    (Instr.push 127).wellFormed = true ∧ assemble "swap" (some 31) = some 0x3F ∧
    assemble "pop" none = some 0x20 := by decide

theorem witness_StepRunsDecodedInstruction :
    (machineAt 1 [0x80, 0x00] []).runState = .running ∧ 1 < (machineAt 1 [0x80, 0x00] []).code.length ∧
    decode 0x00 = .ok .add ∧ decode 0x1F = .error .unknownOpcode := by decide

theorem witness_LoopEndsExactlyAtLen :
    Inv (machineAt 1 [0x80] [0]) ∧ step (machineAt 1 [0x80] [0]) =
      .next { machineAt 1 [0x80] [0] with runState := .halted } ∧
    Inv (machineAt 0 [0x80] []) ∧ step (machineAt 0 [0x80] []) = .next (machineAt 1 [0x80] [0]) :=
  ⟨machineAt_inv (by decide) (by decide), rfl, machineAt_inv (by decide) (by decide), rfl⟩

theorem witness_StepLeavesIdleAndEndedAlone :
    State.reset.runState ≠ .running ∧ (hostRun State.reset).runState ≠ .running := by decide

/-- A machine that waits and one that does not. -/
theorem witness_RunningProgressesUnlessWaiting :
    readWaiting (machine [0x08] []) = true ∧ readWaiting (machine [0x80] []) = false ∧
    (machine [0x08] []).runState = .running := by decide

theorem witness_AluDividesUnsigned : (0 : Byte) = 0 ∧ (255 : Byte) ≠ 0 := by decide

theorem witness_PushPrimitive :
    255 < 256 ∧ (255 ≤ 255 ∧ (limited 1 (machine [] [9])).cfg.stackMax = some [(9 : Byte)].length) ∧
    (machine [] [9]).cfg.stackMax ≠ some 1 := by decide

theorem witness_PopPrimitive :
    (machine [] []).stack = [] ∧ (machine [] [1, 2]).stack = 1 :: [2] ∧ 255 ≤ 255 ∧
    (limited 1 (machine [] [])).cfg.stackMax ≠ some 0 := by decide

theorem witness_LoadPrimitive :
    (machine [] [7]).stack.length ≤ 1 ∧ (0 < (machine [] [7]).stack.length ∧ HasRoom (machine [] [7])) ∧
    (0 < (limited 1 (machine [] [7])).stack.length ∧ ¬ HasRoom (limited 1 (machine [] [7]))) := by decide

theorem witness_SwapPrimitive :
    (machine [] []).stack.length ≤ 0 ∧ (0 < (machine [] [5]).stack.length ∧ 0 = 0) ∧
    (1 < (machine [] [5, 6]).stack.length ∧ 1 ≤ 1) := by decide

theorem witness_SetIPBoundary :
    ((-1 : Int) < 0 ∨ ((machine [0x80] []).code.length : Int) < -1) ∧
    ((2 : Int) < 0 ∨ ((machine [0x80] []).code.length : Int) < 2) ∧
    ((0 : Int) ≤ 1 ∧ (1 : Int) ≤ ((machine [0x80] []).code.length : Int)) := by decide

/-- add, subtract and multiply: a stack at its limit with two operands, and one element. -/
theorem witness_AddMeaning :
    (StackFits (limited 2 (machine [] [255, 1])) ∧ (limited 2 (machine [] [255, 1])).stack = 255 :: 1 :: []) ∧
    (StackFits (machine [] [5]) ∧ (machine [] [5]).stack.length < 2) := by decide

theorem witness_SubtractMeaning :
    (StackFits (limited 2 (machine [] [0, 1])) ∧ (limited 2 (machine [] [0, 1])).stack = 0 :: 1 :: []) ∧
    (StackFits (machine [] []) ∧ (machine [] []).stack.length < 2) := by decide

theorem witness_DivideMeaning :
    (StackFits (limited 2 (machine [] [255, 2])) ∧
      (limited 2 (machine [] [255, 2])).stack = 255 :: 2 :: [] ∧ (2 : Byte) ≠ 0) ∧
    (StackFits (machine [] [0, 0, 9]) ∧ (machine [] [0, 0, 9]).stack = 0 :: 0 :: [9]) ∧
    (StackFits (machine [] [5]) ∧ (machine [] [5]).stack.length < 2) := by decide

theorem witness_MultiplyMeaning :
    (StackFits (limited 2 (machine [] [255, 255])) ∧
      (limited 2 (machine [] [255, 255])).stack = 255 :: 255 :: []) ∧
    (StackFits (machine [] [9]) ∧ (machine [] [9]).stack.length < 2) := by decide

theorem witness_ReadMeaning :
    (((machine [] [1]).withInput [0]).input = 0 :: [] ∧ HasRoom ((machine [] [1]).withInput [0])) ∧
    ((limited 1 ((machine [] [1]).withInput [0])).input = 0 :: [] ∧
      ¬ HasRoom (limited 1 ((machine [] [1]).withInput [0]))) ∧
    ({ machine [] [] with inputEnded := true }.input = [] ∧
      { machine [] [] with inputEnded := true }.inputEnded = true) := by decide

theorem witness_ReadWaitsForInput :
    (machine [0x08] []).runState = .running ∧ codeAt (machine [0x08] []) 0 = some 0x08 ∧
    (machine [0x08] []).input = [] ∧ (machine [0x08] []).inputEnded = false ∧ HasRoom (machine [0x08] []) := by
  decide

theorem witness_WriteMeaning :
    (machine [] [0]).stack = 0 :: [] ∧ (machine [] []).stack = [] := by decide

theorem witness_JumpMeaning :
    ((machineAt 2 [0x81, 0x10, 0x80] [1]).stack = 1 :: [] ∧
      2 + (1 : Byte).toNat ≤ (machineAt 2 [0x81, 0x10, 0x80] [1]).code.length) ∧
    ((machineAt 2 [0x82, 0x10, 0x80] [2]).stack = 2 :: [] ∧
      (machineAt 2 [0x82, 0x10, 0x80] [2]).code.length < 2 + (2 : Byte).toNat) ∧
    (machineAt 1 [0x10] []).stack = [] := by decide

set_option maxRecDepth 4000 in
theorem witness_CallMeaning :
    (StackFits (limited 1 (machineAt 2 [0x80, 0x11] [0])) ∧
      (limited 1 (machineAt 2 [0x80, 0x11] [0])).stack = 0 :: [] ∧ 2 ≤ 255 ∧
      2 + (0 : Byte).toNat ≤ (machineAt 2 [0x80, 0x11] [0]).code.length) ∧
    (StackFits (machineAt 255 (List.replicate 255 0x80) [1]) ∧
      (machineAt 255 (List.replicate 255 0x80) [1]).stack = 1 :: [] ∧ 255 ≤ 255 ∧
      (machineAt 255 (List.replicate 255 0x80) [1]).code.length < 255 + (1 : Byte).toNat) ∧
    (StackFits (machineAt 256 (List.replicate 256 0x80) [0]) ∧
      (machineAt 256 (List.replicate 256 0x80) [0]).stack = 0 :: [] ∧ 255 < 256) ∧
    (StackFits (machineAt 1 [0x11] []) ∧ (machineAt 1 [0x11] []).stack = []) := by decide

theorem witness_RetMeaning :
    ((machineAt 2 [0x82, 0x12] [2]).stack = 2 :: [] ∧
      (2 : Byte).toNat ≤ (machineAt 2 [0x82, 0x12] [2]).code.length) ∧
    ((machineAt 2 [0x83, 0x12] [3]).stack = 3 :: [] ∧
      (machineAt 2 [0x83, 0x12] [3]).code.length < (3 : Byte).toNat) ∧
    (machineAt 1 [0x12] []).stack = [] := by decide

theorem witness_CjeMeaning :
    ((machineAt 4 [0x81, 0x81, 0x80, 0x14] [0, 1, 1]).stack = 0 :: 1 :: 1 :: [] ∧ (1 : Byte) = 1 ∧
      4 + (0 : Byte).toNat ≤ (machineAt 4 [0x81, 0x81, 0x80, 0x14] []).code.length) ∧
    ((machineAt 4 [0x81, 0x81, 0x81, 0x14] [1, 1, 1]).stack = 1 :: 1 :: 1 :: [] ∧
      (machineAt 4 [0x81, 0x81, 0x81, 0x14] []).code.length < 4 + (1 : Byte).toNat) ∧
    ((machineAt 4 [0x81, 0x82, 0xFF, 0x14] [127, 2, 1]).stack = 127 :: 2 :: 1 :: [] ∧ (2 : Byte) ≠ 1) ∧
    (machineAt 1 [0x14] [0, 0]).stack.length < 3 := by decide

theorem witness_JseMeaning :
    ((machineAt 2 [0x80, 0x18] [0]).stack = [0] ∧
      2 + (0 : Byte).toNat ≤ (machineAt 2 [0x80, 0x18] [0]).code.length) ∧
    ((machineAt 2 [0x81, 0x18] [1]).stack = [1] ∧
      (machineAt 2 [0x81, 0x18] [1]).code.length < 2 + (1 : Byte).toNat) ∧
    (machineAt 3 [0x81, 0xFF, 0x18] [127, 1]).stack = 127 :: 1 :: [] ∧
    (machineAt 1 [0x18] []).stack = [] := by decide

theorem witness_PopMeaning : (machine [] [1]).stack = 1 :: [] ∧ (machine [] []).stack = [] := by decide

theorem witness_SwapMeaning :
    (1 : BitVec 5) ≠ 0 ∧
    ((machine [] [3, 10]).stack[0]? = some 3 ∧ (machine [] [3, 10]).stack[(1 : BitVec 5).toNat]? = some 10) ∧
    (machine [] [1]).stack.length ≤ (1 : BitVec 5).toNat := by decide

theorem witness_LoadMeaning :
    (62 : BitVec 6) ≠ 63 ∧
    ((machine [] [7]).stack[(0 : BitVec 6).toNat]? = some 7 ∧ HasRoom (machine [] [7])) ∧
    ((0 : BitVec 6).toNat < (limited 1 (machine [] [7])).stack.length ∧ ¬ HasRoom (limited 1 (machine [] [7]))) ∧
    (machine [] [3, 2]).stack.length ≤ (2 : BitVec 6).toNat := by decide

theorem witness_PushMeaning : HasRoom (machine [] [4]) ∧ ¬ HasRoom (limited 1 (machine [] [4])) := by decide

/-- One of the eight instructions completing, and one faulting. -/
theorem witness_StackOnlyFrame :
    exec .add (machine [] [3, 5]) = .next (machine [] [8]) ∧
    exec (.load 0) (machine [] []) = .next (faultedWith .indexOutOfBounds [] (machine [] [])) := ⟨rfl, rfl⟩

theorem witness_ControlFrame :
    exec .ret (machineAt 2 [0x80, 0x12] [0]) = .next (machineAt 0 [0x80, 0x12] []) ∧
    exec .jump (machineAt 1 [0x10] [1]) = .next (faultedWith .ipOutOfBounds [] (machineAt 1 [0x10] [1])) :=
  ⟨rfl, rfl⟩

/-- The read completing, waiting and faulting; the write completing and faulting. -/
theorem witness_StreamFrame :
    exec .read ((machine [] []).withInput [7]) = .next (machine [] [7]) ∧
    exec .read (machineAt 1 [0x08] []) = .next (machineAt 0 [0x08] []) ∧
    exec .read (limited 0 ((machine [] []).withInput [7])) =
      .next (faultedWith .stackOverflow [] (limited 0 (machine [] []))) ∧
    exec .write (machine [] [7]) = .next ((machine [] []).withOutput [7]) ∧
    exec .write (machine [] []) = .next (faultedWith .emptyStack [] (machine [] [])) := ⟨rfl, rfl, rfl, rfl, rfl⟩

theorem witness_StackBelowOperandsUnchanged :
    exec (.swap 2) (machine [] [1, 2, 3, 4]) = .next (machine [] [3, 2, 1, 4]) ∧
    0 < (machine [] [1, 2, 3, 4]).stack.length - reach (.swap 2) ∧ (Instr.swap 2).wellFormed = true ∧
    1 ≠ 0 ∧ 1 ≠ (2 : BitVec 5).toNat := ⟨rfl, by decide, by decide, by decide, by decide⟩

theorem witness_CodeNeverChanges :
    exec .pop (machine [0x20] [1]) = .next (machine [0x20] []) ∧
    step (machine [0x20] [1]) = .next (machineAt 1 [0x20] []) ∧
    (machine [0x20] [1]).codeSet = true ∧
    hostEvent (.load [0x00]) (machine [0x20] [1]) =
      .next (.loadRefused .memoryPermissionsError, machine [0x20] [1]) := ⟨rfl, rfl, rfl, rfl⟩

theorem witness_SizeLaws :
    exec .cje (machineAt 4 [0x81, 0x82, 0xFF, 0x14] [127, 2, 1]) =
      .next (machineAt 4 [0x81, 0x82, 0xFF, 0x14] []) ∧
    (machineAt 4 [0x81, 0x82, 0xFF, 0x14] []).runState ≠ .faulted ∧
    ¬ (Instr.cje = .read ∧ (machineAt 4 [0x81, 0x82, 0xFF, 0x14] [127, 2, 1]).input = []) :=
  ⟨rfl, by decide, by decide⟩

theorem witness_OnlyListedKindsRaised :
    StackFits (machine [] [5, 0]) ∧ (machine [] [5, 0]).runState = .running ∧
    exec .divide (machine [] [5, 0]) = .next (faultedWith .divisionByZero [] (machine [] [5, 0])) :=
  ⟨rfl, rfl, rfl⟩

/-- The lowest address at which a call cannot push its return address. -/
theorem witness_ValueOutOfRangeOnlyFromHighCall :
    (machineAt 255 (List.replicate 255 0x80 ++ [0x11]) [0]).fault = none ∧
    after (step (machineAt 255 (List.replicate 255 0x80 ++ [0x11]) [0])) =
      some ([], 256, some .valueOutOfRange) := by decide

theorem witness_FaultLeavesIncrementedIP :
    (machine [0x7F] []).runState = .running ∧
    step (machine [0x7F] []) = .next (faultedWith .unknownOpcode [] (machineAt 1 [0x7F] [])) := ⟨rfl, rfl⟩

theorem witness_EndedUntilReset :
    Ended (hostRun State.reset) ∧
    hostEvent (.inputByte 7) (hostRun State.reset) = .next (.done, (hostRun State.reset).withInput [7]) :=
  ⟨by decide, rfl⟩

theorem witness_IPStaysWithinCode :
    (machine [0x80] []).ip ≤ (machine [0x80] []).code.length ∧
    step (machine [0x80] []) = .next (machineAt 1 [0x80] [0]) := ⟨by decide, rfl⟩

theorem witness_RelativeTransfersGoForward :
    exec .jump (machineAt 2 [0x81, 0x10, 0x80] [1]) = .next (machineAt 3 [0x81, 0x10, 0x80] []) ∧
    exec .ret (machineAt 2 [0x80, 0x12] [0]) = .next (machineAt 0 [0x80, 0x12] []) ∧
    (machineAt 0 [0x80, 0x12] []).runState ≠ .faulted := ⟨rfl, rfl, by decide⟩

theorem witness_OutputGrowsAndIsNeverRead :
    step (machine [0x09] [7]) = .next ((machineAt 1 [0x09] []).withOutput [7]) := rfl

theorem witness_InputConsumedInOrder :
    step ((machine [0x08] []).withInput [7]) = .next (machineAt 1 [0x08] [7]) ∧
    ((machine [0x08] []).withInput [7]).input ≠ [] := ⟨rfl, by decide⟩

theorem witness_OnlyFetchedByteMatters :
    [(0x80 : Byte), 0x7F].length = (machine [0x80, 0x20] []).code.length ∧
    [(0x80 : Byte), 0x7F][0]? = (machine [0x80, 0x20] []).code[0]? ∧
    step (machine [0x80, 0x20] []) = .next (machineAt 1 [0x80, 0x20] [0]) := ⟨rfl, rfl, rfl⟩

/-- The reset state and the state of a failed first run meet the invariant. -/
theorem reset_inv : Inv State.reset :=
  ⟨by decide, by decide, by decide, by decide, by simp [RunStateAgrees, State.reset]⟩

theorem witness_SetCodeIsWriteOnce :
    ((machine [0x80] []).codeSet = true ∧ State.reset.codeSet = false) ∧
    (Inv State.reset ∧ State.reset.runState = .unloaded) := ⟨by decide, reset_inv, rfl⟩

theorem failed_run_inv : Inv (hostRun State.reset) :=
  ⟨by decide, by decide, by decide, by decide,
    ⟨.noCodeLoaded, rfl, by decide, by decide, by decide, by decide⟩⟩

/-- The reset state of an implementation that loads at most one byte. -/
theorem short_code_inv : Inv { State.reset with cfg := { stackMax := none, codeMax := some 1 } } :=
  ⟨by decide, by decide, by decide, by decide, by simp [RunStateAgrees, State.reset]⟩

theorem witness_LoadInterface :
    (Inv State.reset ∧ State.reset.runState = .unloaded ∧ Config.admits State.reset.cfg.codeMax 1 = true) ∧
    (Inv { State.reset with cfg := { stackMax := none, codeMax := some 1 } } ∧
      { State.reset with cfg := { stackMax := none, codeMax := some 1 } }.runState = .unloaded ∧
      Config.admits (some 1) [(0x80 : Byte), 0x20].length = false) ∧
    (Inv (machineAt 0 [0x80] []) ∧ (machineAt 0 [0x80] []).codeSet = true) ∧
    (Inv (hostRun State.reset) ∧ (hostRun State.reset).runState = .faulted ∧
      (hostRun State.reset).codeSet = false) :=
  ⟨⟨reset_inv, rfl, rfl⟩, ⟨short_code_inv, rfl, rfl⟩, ⟨machineAt_inv (by decide) (by decide), rfl⟩,
    ⟨failed_run_inv, rfl, rfl⟩⟩

/-- A loaded machine that has not started. -/
theorem ready_inv : Inv { State.reset with code := [0x80], codeSet := true, runState := .ready } :=
  ⟨by decide, by decide, by decide, by decide, by simp [RunStateAgrees, State.reset]⟩

theorem witness_RunInterface :
    (Inv State.reset ∧ State.reset.runState = .unloaded ∧ State.reset.code = []) ∧
    (Inv { State.reset with code := [0x80], codeSet := true, runState := .ready } ∧ [(0x80 : Byte)] ≠ []) ∧
    (Inv (machineAt 0 [0x80] []) ∧ (machineAt 0 [0x80] []).runState = .running) ∧
    (Inv (hostRun State.reset) ∧ Ended (hostRun State.reset)) :=
  ⟨⟨reset_inv, rfl, rfl⟩, ⟨ready_inv, by decide⟩, ⟨machineAt_inv (by decide) (by decide), rfl⟩,
    ⟨failed_run_inv, by decide⟩⟩

theorem witness_EndedRunHasOutcome :
    (Inv (hostRun State.reset) ∧ Ended (hostRun State.reset)) ∧ (Inv State.reset ∧ ¬ Ended State.reset) :=
  ⟨⟨failed_run_inv, by decide⟩, ⟨reset_inv, by decide⟩⟩

theorem witness_ObservationAfterTheRun :
    (Ended { machineAt 1 [0x80] [0] with runState := .halted } ∧
      0 < { machineAt 1 [0x80] [0] with runState := .halted }.stack.length ∧
      0 < { machineAt 1 [0x80] [0] with runState := .halted }.code.length) ∧
    (Ended (hostRun State.reset) ∧ (hostRun State.reset).fault = some .noCodeLoaded) := by decide

theorem witness_ResetMeetsInvariant :
    hostEvent .reset (machineAt 1 [0x80] [0]) = .next (.done, State.reset) := rfl

theorem witness_StepKeepsInvariant :
    Inv (machineAt 0 [0x80] []) ∧ step (machineAt 0 [0x80] []) = .next (machineAt 1 [0x80] [0]) :=
  ⟨machineAt_inv (by decide) (by decide), rfl⟩

theorem witness_EventsKeepInvariant :
    Inv State.reset ∧ hostEvent (.load [0x80]) State.reset =
      .next (.done, { State.reset with code := [0x80], codeSet := true, runState := .ready }) :=
  ⟨reset_inv, rfl⟩

/-- A read that takes the offered byte; a write that is accepted, and one that waits; a load beat taken. Reset is
test_run_cycle. -/
theorem witness_PortHandshakes :
    portCycle (pins false false true) ⟨machine [0x08] [], [], false⟩ =
      .next ⟨machineAt 1 [0x08] [7], [], false⟩ ∧
    (portCycle (pins false false true) ⟨machine [0x09] [5], [], false⟩ =
        .next ⟨((machineAt 1 [0x09] []).withInput [7]).withOutput [5], [], false⟩ ∧
      portOut (pins false false true) (machine [0x09] [5]) = some 5) ∧
    (portCycle (pins false false false) ⟨machine [0x09] [5], [], false⟩ =
        .next ⟨(machine [0x09] [5]).withInput [7], [], false⟩ ∧
      portOut (pins false false false) (machine [0x09] [5]) = some 5) ∧
    portOutValid (pins false false true) (machine [0x08] []) = false ∧
    portCycle (pinsWithBeat ⟨true, 0x81, false, false⟩) ⟨State.reset, [], false⟩ =
      .next ⟨State.reset.withInput [7], [0x81], false⟩ ∧
    portCycle (pinsWithBeat ⟨true, 0x20, true, false⟩) ⟨State.reset, [0x81], false⟩ =
      .next ⟨{ State.reset with code := [0x81, 0x20], codeSet := true, runState := .ready, input := [7] },
        [], false⟩ :=
  ⟨rfl, ⟨rfl, rfl⟩, ⟨rfl, rfl⟩, rfl, rfl, rfl⟩

end Sys2Proof.Tests
end

section
/-! The statements of spec 10_state.md: how an instruction can end, what that leaves of the state, and the
invariant across a step. -/

namespace Sys2Proof

/-! ### The limits -/

theorem Config.admits_of_le {m : Option Nat} {n k : Nat} (h : Config.admits m n = true) (hk : k ≤ n) :
    Config.admits m k = true := by
  cases m with
  | none => rfl
  | some max => simp only [Config.admits, decide_eq_true_eq] at h ⊢; omega

theorem Config.admits_succ {m : Option Nat} {n : Nat} (h : Config.admits m n = true) (hn : m ≠ some n) :
    Config.admits m (n + 1) = true := by
  cases m with
  | none => rfl
  | some max =>
    have : max ≠ n := by simpa using hn
    simp only [Config.admits, decide_eq_true_eq] at h ⊢; omega

theorem Config.admits_zero (m : Option Nat) : Config.admits m 0 = true := by
  cases m with
  | none => rfl
  | some max => simp [Config.admits]

namespace Machine

/-! ### How an instruction can end -/

/-- A kind the execute phase can raise: not one of the two the host's load and run raise, and `StackOverflow`
only under a finite `STACK_MAX` (60_exceptions.md R156, R163, R164). -/
def RaisedInRun (s : State) (k : FaultKind) : Prop :=
  k ≠ .memoryPermissionsError ∧ k ≠ .noCodeLoaded ∧ (k = .stackOverflow → s.cfg.stackMax ≠ none)

theorem raisedInRun_stackOverflow {s : State} {n : Nat} (h : s.cfg.stackMax = some n) :
    RaisedInRun s .stackOverflow := by
  simp [RaisedInRun, h]

/-- Every other kind can be raised under any `STACK_MAX`. -/
theorem raisedInRun_of_notMem {s : State} {k : FaultKind}
    (h : k ∉ [FaultKind.memoryPermissionsError, .noCodeLoaded, .stackOverflow]) : RaisedInRun s k := by
  simp only [List.mem_cons, List.not_mem_nil, or_false, not_or] at h
  obtain ⟨hperm, hcode, hover⟩ := h
  exact ⟨hperm, hcode, fun e => absurd e hover⟩

/-- An instruction begun in `s` ends in a state of `P`, or with the fault entry from a state of `P`. -/
inductive EndsIn (s : State) (P : State → Prop) (o : Host.Outcome State Fault Refusal) : Prop where
  | done {t : State} (ht : P t) (e : o = .next t)
  | raised {k : FaultKind} {t : State} (ht : P t) (hk : RaisedInRun s k) (e : o = .next (takeFault k t))

theorem EndsIn.mono {s : State} {P Q : State → Prop} {o : Host.Outcome State Fault Refusal}
    (h : EndsIn s P o) (hPQ : ∀ t, P t → Q t) : EndsIn s Q o := by
  cases h with
  | done ht e => exact .done (hPQ _ ht) e
  | raised ht hk e => exact .raised (hPQ _ ht) hk e

/-- A property of every end and of every fault entry from one is a property of the next state. -/
theorem EndsIn.next_state {s t : State} {P Q : State → Prop} {o : Host.Outcome State Fault Refusal}
    (h : EndsIn s P o) (ho : o = .next t) (hdone : ∀ u, P u → Q u)
    (hfault : ∀ k u, P u → RaisedInRun s k → Q (takeFault k u)) : Q t := by
  cases h with
  | done ht e => cases ho.symm.trans e; exact hdone _ ht
  | raised ht hk e => cases ho.symm.trans e; exact hfault _ _ ht hk

/-! ### The instructions that write the stack only -/

/-- `t` is `s` with another stack, which keeps within `STACK_MAX`. -/
def StackWritten (s t : State) : Prop :=
  ∃ v : List Byte, t = s.withStack v ∧ (StackFits s → StackFits t)

theorem stackWritten_of_le {s : State} {v : List Byte} (h : v.length ≤ s.stack.length) :
    StackWritten s (s.withStack v) :=
  ⟨v, rfl, fun hs => Config.admits_of_le hs h⟩

theorem stackWritten_self (s : State) : StackWritten s s := stackWritten_of_le le_rfl

theorem stackWritten_cons {s : State} (h : HasRoom s) (b : Byte) : StackWritten s (s.withStack (b :: s.stack)) :=
  ⟨b :: s.stack, rfl, fun hs => Config.admits_succ hs h⟩

theorem binaryOperation_writes_stack (f : Byte → Byte → Byte) (s : State) :
    EndsIn s (StackWritten s) (binaryOperation f s) := by
  rcases binaryOperation_cases f s with ⟨-, e⟩ | ⟨a, b, rest, h, hm, e⟩ | ⟨a, b, rest, h, -, e⟩
  · exact .raised (stackWritten_of_le (by simp)) (raisedInRun_of_notMem (by decide)) e
  · exact .raised (stackWritten_of_le (by simp [h]; omega)) (raisedInRun_stackOverflow hm) e
  · exact .done (stackWritten_of_le (by simp [h])) e

theorem execDivide_writes_stack (s : State) : EndsIn s (StackWritten s) (execDivide s) := by
  rcases execDivide_cases s with ⟨-, e⟩ | ⟨a, rest, h, e⟩ | ⟨a, b, rest, h, -, hm, e⟩ |
    ⟨a, b, rest, h, -, hm, e⟩ | ⟨a, b, rest, h, -, -, -, e⟩
  · exact .raised (stackWritten_of_le (by simp)) (raisedInRun_of_notMem (by decide)) e
  · exact .raised (stackWritten_of_le (by simp [h]; omega)) (raisedInRun_of_notMem (by decide)) e
  · exact .raised (stackWritten_of_le (by simp [h]; omega)) (raisedInRun_stackOverflow hm) e
  · exact .raised (stackWritten_of_le (by simp [h])) (raisedInRun_stackOverflow hm) e
  · exact .done (stackWritten_of_le (by simp [h])) e

theorem execPop_writes_stack (s : State) : EndsIn s (StackWritten s) (execPop s) := by
  rcases execPop_cases s with ⟨-, e⟩ | ⟨b, rest, h, e⟩
  · exact .raised (stackWritten_self s) (raisedInRun_of_notMem (by decide)) e
  · exact .done (stackWritten_of_le (by simp [h])) e

theorem execSwap_writes_stack (index : BitVec 5) (s : State) :
    EndsIn s (StackWritten s) (execSwap index s) := by
  rcases execSwap_cases index s with ⟨-, e⟩ | ⟨b, rest, x, h, -, e⟩
  · exact .raised (stackWritten_self s) (raisedInRun_of_notMem (by decide)) e
  · refine .done (stackWritten_of_le ?_) e
    split <;> simp [h]

theorem execLoad_writes_stack (offset : BitVec 6) (s : State) :
    EndsIn s (StackWritten s) (execLoad offset s) := by
  rcases execLoad_cases offset s with ⟨-, e⟩ | ⟨v, -, hm, e⟩ | ⟨v, -, hm, e⟩
  · exact .raised (stackWritten_self s) (raisedInRun_of_notMem (by decide)) e
  · exact .raised (stackWritten_self s) (raisedInRun_stackOverflow hm) e
  · exact .done (stackWritten_cons hm v) e

theorem execPush_writes_stack (value : BitVec 7) (s : State) :
    EndsIn s (StackWritten s) (execPush value s) := by
  rcases execPush_cases value s with ⟨hm, e⟩ | ⟨hm, e⟩
  · exact .raised (stackWritten_self s) (raisedInRun_stackOverflow hm) e
  · exact .done (stackWritten_cons hm _) e

/-- The frame of an instruction that writes the stack only. -/
theorem EndsIn.stack_frame {s t : State} {o : Host.Outcome State Fault Refusal}
    (h : EndsIn s (StackWritten s) o) (ho : o = .next t) :
    t = { s with stack := t.stack } ∨
      ∃ k, t = { s with stack := t.stack, fault := some k, runState := .faulted } := by
  cases h with
  | done ht e =>
    obtain ⟨v, rfl, -⟩ := ht
    cases ho.symm.trans e
    exact .inl rfl
  | @raised k _ ht hk e =>
    obtain ⟨v, rfl, -⟩ := ht
    cases ho.symm.trans e
    exact .inr ⟨k, rfl⟩

/-! ### Every instruction -/

/-- What the sub-steps of an instruction begun in `s` keep: everything but the stack, `IP` and the streams, the
stack within its limit and `IP` within the code. -/
structure Progress (s t : State) : Prop where
  cfg : t.cfg = s.cfg
  code : t.code = s.code
  codeSet : t.codeSet = s.codeSet
  runState : t.runState = s.runState
  fault : t.fault = s.fault
  stack_fits : StackFits s → StackFits t
  ip_le_len : s.ip ≤ s.code.length → t.ip ≤ t.code.length

theorem StackWritten.progress {s t : State} (h : StackWritten s t) : Progress s t := by
  obtain ⟨v, rfl, hfits⟩ := h
  exact ⟨rfl, rfl, rfl, rfl, rfl, hfits, id⟩

theorem progress_self (s : State) : Progress s s := (stackWritten_self s).progress

theorem progress_withStack {s : State} {v : List Byte} (h : v.length ≤ s.stack.length) :
    Progress s (s.withStack v) :=
  (stackWritten_of_le h).progress

theorem Progress.withIP {s t : State} (h : Progress s t) {n : Nat} (hn : n ≤ s.code.length) :
    Progress s (t.withIP n) :=
  ⟨h.cfg, h.code, h.codeSet, h.runState, h.fault, h.stack_fits, fun _ => by simpa [h.code] using hn⟩

theorem Progress.withInput {s t : State} (h : Progress s t) (v : List Byte) : Progress s (t.withInput v) :=
  ⟨h.cfg, h.code, h.codeSet, h.runState, h.fault, h.stack_fits, h.ip_le_len⟩

theorem Progress.withOutput {s t : State} (h : Progress s t) (v : List Byte) : Progress s (t.withOutput v) :=
  ⟨h.cfg, h.code, h.codeSet, h.runState, h.fault, h.stack_fits, h.ip_le_len⟩

theorem RaisedInRun.of_progress {s t : State} {k : FaultKind} (hk : RaisedInRun s k) (hp : Progress s t) :
    RaisedInRun t k := by
  simpa only [RaisedInRun, hp.cfg] using hk

theorem progress_awaitStream (s : State) : Progress s (awaitStream s) :=
  ⟨rfl, rfl, rfl, rfl, rfl, id, fun h => by simp only [awaitStream_ip, awaitStream_code]; omega⟩

theorem execRead_progress (s : State) : EndsIn s (Progress s) (execRead s) := by
  rcases execRead_cases s with ⟨v, rest, -, hm, e⟩ | ⟨v, rest, -, hm, e⟩ | ⟨-, -, e⟩ | ⟨-, -, e⟩
  · exact .done ((stackWritten_cons hm v).progress.withInput rest) e
  · exact .raised ((progress_self s).withInput rest) (raisedInRun_stackOverflow hm) e
  · exact .raised (progress_self s) (raisedInRun_of_notMem (by decide)) e
  · exact .done (progress_awaitStream s) e

theorem execWrite_progress (s : State) : EndsIn s (Progress s) (execWrite s) := by
  rcases execWrite_cases s with ⟨-, e⟩ | ⟨v, rest, h, e⟩
  · exact .raised (progress_self s) (raisedInRun_of_notMem (by decide)) e
  · exact .done ((progress_withStack (by simp [h])).withOutput _) e

theorem execJump_progress (s : State) : EndsIn s (Progress s) (execJump s) := by
  rcases execJump_cases s with ⟨-, e⟩ | ⟨offset, rest, h, hip, e⟩ | ⟨offset, rest, h, -, e⟩
  · exact .raised (progress_self s) (raisedInRun_of_notMem (by decide)) e
  · exact .done ((progress_withStack (by simp [h])).withIP hip) e
  · exact .raised (progress_withStack (by simp [h])) (raisedInRun_of_notMem (by decide)) e

theorem execCall_progress (s : State) : EndsIn s (Progress s) (execCall s) := by
  rcases execCall_cases s with ⟨-, e⟩ | ⟨offset, rest, h, -, e⟩ | ⟨offset, rest, h, -, hm, e⟩ |
    ⟨offset, rest, h, -, -, hip, e⟩ | ⟨offset, rest, h, -, -, -, e⟩
  · exact .raised (progress_self s) (raisedInRun_of_notMem (by decide)) e
  · exact .raised (progress_withStack (by simp [h])) (raisedInRun_of_notMem (by decide)) e
  · exact .raised (progress_withStack (by simp [h])) (raisedInRun_stackOverflow hm) e
  · exact .done ((progress_withStack (by simp [h])).withIP hip) e
  · exact .raised (progress_withStack (by simp [h])) (raisedInRun_of_notMem (by decide)) e

theorem execRet_progress (s : State) : EndsIn s (Progress s) (execRet s) := by
  rcases execRet_cases s with ⟨-, e⟩ | ⟨value, rest, h, hip, e⟩ | ⟨value, rest, h, -, e⟩
  · exact .raised (progress_self s) (raisedInRun_of_notMem (by decide)) e
  · exact .done ((progress_withStack (by simp [h])).withIP hip) e
  · exact .raised (progress_withStack (by simp [h])) (raisedInRun_of_notMem (by decide)) e

theorem execCje_progress (s : State) : EndsIn s (Progress s) (execCje s) := by
  rcases execCje_cases s with ⟨-, e⟩ | ⟨offset, x, y, rest, h, -, e⟩ | ⟨offset, x, y, rest, h, -, hip, e⟩ |
    ⟨offset, x, y, rest, h, -, -, e⟩
  · exact .raised (progress_withStack (by simp)) (raisedInRun_of_notMem (by decide)) e
  · exact .done (progress_withStack (by simp [h]; omega)) e
  · exact .done ((progress_withStack (by simp [h]; omega)).withIP hip) e
  · exact .raised (progress_withStack (by simp [h]; omega)) (raisedInRun_of_notMem (by decide)) e

theorem execJse_progress (s : State) : EndsIn s (Progress s) (execJse s) := by
  rcases execJse_cases s with ⟨-, e⟩ | ⟨offset, b, rest, h, e⟩ | ⟨offset, h, hip, e⟩ | ⟨offset, h, -, e⟩
  · exact .raised (progress_self s) (raisedInRun_of_notMem (by decide)) e
  · exact .done (progress_withStack (by simp [h])) e
  · exact .done ((progress_withStack (by simp)).withIP hip) e
  · exact .raised (progress_withStack (by simp)) (raisedInRun_of_notMem (by decide)) e

theorem exec_progress (i : Instr) (s : State) : EndsIn s (Progress s) (exec i s) := by
  cases i with
  | add => exact (binaryOperation_writes_stack aluAdd s).mono fun _ => StackWritten.progress
  | subtract => exact (binaryOperation_writes_stack aluSubtract s).mono fun _ => StackWritten.progress
  | divide => exact (execDivide_writes_stack s).mono fun _ => StackWritten.progress
  | multiply => exact (binaryOperation_writes_stack aluMultiply s).mono fun _ => StackWritten.progress
  | read => exact execRead_progress s
  | write => exact execWrite_progress s
  | jump => exact execJump_progress s
  | call => exact execCall_progress s
  | ret => exact execRet_progress s
  | cje => exact execCje_progress s
  | jse => exact execJse_progress s
  | pop => exact (execPop_writes_stack s).mono fun _ => StackWritten.progress
  | swap index => exact (execSwap_writes_stack index s).mono fun _ => StackWritten.progress
  | load offset => exact (execLoad_writes_stack offset s).mono fun _ => StackWritten.progress
  | push value => exact (execPush_writes_stack value s).mono fun _ => StackWritten.progress

/-! ### The step -/

theorem codeAt_eq_none_iff {s : State} {a : Nat} : codeAt s a = none ↔ s.code.length ≤ a := by
  simp [codeAt]

theorem lt_length_of_codeAt {s : State} {a : Nat} {b : Byte} (h : codeAt s a = some b) : a < s.code.length :=
  (List.getElem?_eq_some_iff.mp h).1

/-- A step stands still, terminates normally, or ends an iteration of the loop begun after the fetch increment. -/
theorem step_progress (s : State) :
    (s.runState ≠ .running ∧ step s = .next s) ∨
    (s.runState = .running ∧ s.code.length ≤ s.ip ∧ step s = .next (s.withRunState .halted)) ∨
    (s.runState = .running ∧ s.ip < s.code.length ∧
      EndsIn (s.withIP (s.ip + 1)) (Progress (s.withIP (s.ip + 1))) (step s)) := by
  rcases step_cases s with idle | ⟨hr, hc, e⟩ | ⟨b, hr, hc, -, e⟩ | ⟨b, i, hr, hc, -, e⟩
  · exact .inl idle
  · exact .inr (.inl ⟨hr, codeAt_eq_none_iff.mp hc, e⟩)
  · exact .inr (.inr ⟨hr, lt_length_of_codeAt hc,
      .raised (progress_self _) (raisedInRun_of_notMem (by decide)) e⟩)
  · exact .inr (.inr ⟨hr, lt_length_of_codeAt hc, e ▸ exec_progress i _⟩)

theorem step_ip_le_len {s t : State} (hip : s.ip ≤ s.code.length) (h : step s = .next t) :
    t.ip ≤ t.code.length := by
  rcases step_progress s with ⟨-, e⟩ | ⟨-, -, e⟩ | ⟨-, hlt, hend⟩
  · cases h.symm.trans e; exact hip
  · cases h.symm.trans e; exact hip
  · exact hend.next_state h (fun _ hu => hu.ip_le_len hlt) (fun _ _ hu _ => hu.ip_le_len hlt)

/-! ### The invariant -/

theorem runStateAgrees_running {s : State} (hr : s.runState = .running) :
    RunStateAgrees s ↔ s.codeSet = true ∧ 0 < s.len ∧ s.fault = none := by
  simp [RunStateAgrees, hr]

/-- The fetch increment keeps the invariant, since the guard was true. -/
theorem Inv.fetched {s : State} (h : Inv s) (hr : s.runState = .running) (hlt : s.ip < s.code.length) :
    Inv (s.withIP (s.ip + 1)) :=
  ⟨hlt, h.unset_empty, h.stack_fits, h.code_fits,
    (runStateAgrees_running (s := s.withIP (s.ip + 1)) hr).mpr ((runStateAgrees_running hr).mp h.run_state)⟩

/-- The sub-steps of an instruction keep the invariant. -/
theorem Inv.progress {s t : State} (h : Inv s) (hr : s.runState = .running) (hp : Progress s t) : Inv t := by
  obtain ⟨hset, hlen, hfault⟩ := (runStateAgrees_running hr).mp h.run_state
  refine ⟨hp.ip_le_len h.ip_le_len, ?_, hp.stack_fits h.stack_fits, ?_, ?_⟩
  · rw [hp.codeSet, hp.code]; exact h.unset_empty
  · simpa only [CodeFits, hp.cfg, hp.code] using h.code_fits
  · refine (runStateAgrees_running (hp.runState.trans hr)).mpr ⟨hp.codeSet.trans hset, ?_, hp.fault.trans hfault⟩
    simpa [hp.code] using hlen

/-- Fault entry in a run keeps the invariant. -/
theorem Inv.faulted {s : State} {k : FaultKind} (h : Inv s) (hr : s.runState = .running)
    (hk : RaisedInRun s k) : Inv (takeFault k s) := by
  obtain ⟨hset, hlen, -⟩ := (runStateAgrees_running hr).mp h.run_state
  obtain ⟨hperm, hcode, hover⟩ := hk
  have agrees : RunStateAgrees (takeFault k s) :=
    ⟨k, rfl, hperm, iff_of_false hcode hlen.ne', fun hunset => by simp [hset] at hunset, hover⟩
  exact ⟨h.ip_le_len, h.unset_empty, h.stack_fits, h.code_fits, agrees⟩

/-- Normal termination keeps the invariant: the guard is false only at `IP = LEN`. -/
theorem Inv.halted {s : State} (h : Inv s) (hr : s.runState = .running) (hend : s.code.length ≤ s.ip) :
    Inv (s.withRunState .halted) := by
  obtain ⟨hset, hlen, hfault⟩ := (runStateAgrees_running hr).mp h.run_state
  have agrees : RunStateAgrees (s.withRunState .halted) := ⟨hset, hlen, le_antisymm h.ip_le_len hend, hfault⟩
  exact ⟨h.ip_le_len, h.unset_empty, h.stack_fits, h.code_fits, agrees⟩

theorem step_keeps_inv {s t : State} (h : Inv s) (hstep : step s = .next t) : Inv t := by
  rcases step_progress s with ⟨-, e⟩ | ⟨hr, hend, e⟩ | ⟨hr, hlt, hend⟩
  · cases hstep.symm.trans e; exact h
  · cases hstep.symm.trans e; exact h.halted hr hend
  · have h' : Inv (s.withIP (s.ip + 1)) := h.fetched hr hlt
    exact hend.next_state hstep (fun _ hp => h'.progress hr hp)
      (fun _ _ hp hk => (h'.progress hr hp).faulted (hp.runState.trans hr) (hk.of_progress hp))

/-- The reset event establishes the invariant under every choice of the parameters. -/
theorem hostReset_inv (s : State) : Inv (hostReset s) :=
  ⟨le_rfl, fun _ => rfl, Config.admits_zero _, Config.admits_zero _, rfl, rfl, rfl, rfl, rfl⟩

/-! ### The instruction pointer's checked write -/

theorem setIP_negative {v : Int} (s : State) (h : v < 0) : setIP v s = .raise .ipOutOfBounds s := by
  simp [setIP, h]

/-! ### The obligations -/

/-- Settles O58: an iteration's sub-steps, fault entry and normal termination each keep the invariant. -/
theorem stepKeepsInvariant : Obligations.StepKeepsInvariant :=
  fun _ _ h hstep => step_keeps_inv h hstep

/-- Settles O35, read off each instruction's cases. -/
theorem stackOnlyFrame : Obligations.StackOnlyFrame := by
  intro i s t hi h
  cases i with
  | add => exact (binaryOperation_writes_stack aluAdd s).stack_frame h
  | subtract => exact (binaryOperation_writes_stack aluSubtract s).stack_frame h
  | divide => exact (execDivide_writes_stack s).stack_frame h
  | multiply => exact (binaryOperation_writes_stack aluMultiply s).stack_frame h
  | pop => exact (execPop_writes_stack s).stack_frame h
  | swap index => exact (execSwap_writes_stack index s).stack_frame h
  | load offset => exact (execLoad_writes_stack offset s).stack_frame h
  | push value => exact (execPush_writes_stack value s).stack_frame h
  | read | write | jump | call | ret | cje | jse => exact hi.elim

/-- Settles O45: the fetch increment starts below `LEN`, and every other write of `IP` is checked. -/
theorem ipStaysWithinCode : Obligations.IPStaysWithinCode :=
  ⟨le_rfl, fun _ _ hip h => step_ip_le_len hip h⟩

/-- Settles O18, by the sign of the target. -/
theorem setIPBoundary : Obligations.SetIPBoundary := by
  intro v s
  rcases lt_or_ge v 0 with hneg | hnonneg
  · exact ⟨fun _ => setIP_negative s hneg, fun h => absurd hneg (not_lt.mpr h)⟩
  · lift v to Nat using hnonneg with n
    exact ⟨fun h => setIP_out (by omega), fun _ h => setIP_in (by omega)⟩

/-- Settles O50: the reset state is given field by field. -/
theorem resetValues : Obligations.ResetValues := ⟨rfl, rfl, rfl, rfl, rfl, rfl⟩

/-- Settles O57: the reset state is its own reset. -/
theorem resetMeetsInvariant : Obligations.ResetMeetsInvariant := by
  refine ⟨hostReset_inv State.reset, fun s t r h => ?_⟩
  cases h
  exact hostReset_inv s

end Machine

end Sys2Proof
end

section
/-! The statements of spec 20_memory.md: the primitives of the ByteStack, the code buffer, and what an instruction
does to the stack's size and to the elements below its operands. -/

namespace Sys2Proof

/-- Every byte that decodes gives an instruction that has an encoding (30_encoding.md R62 to R64). -/
theorem wellFormed_of_decode {b : Byte} {i : Instr} (h : decode b = .ok i) : i.wellFormed = true := by
  have every_byte : ∀ b : Byte, ((decode b).toOption.all Instr.wellFormed) = true := by decide
  simpa [h, Except.toOption] using every_byte b

namespace Machine

/-! ### The primitives -/

/-- A `load` below the size pushes the element's copy (20_memory.md R48). -/
theorem stackLoad_lt {offset : Nat} {s : State} (h : offset < s.stack.length) :
    stackLoad offset s = stackPush s.stack[offset].toNat s :=
  stackLoad_some (List.getElem?_eq_getElem h)

/-- `swap` with an index other than 0 exchanges two elements (20_memory.md R49). -/
theorem stackSwap_exchange {index : Nat} {s : State} (h : index < s.stack.length) (hpos : 1 ≤ index) :
    stackSwap index s =
      .ok () (s.withStack ((s.stack.set 0 s.stack[index]).set index (s.stack[0]'(by omega)))) := by
  obtain ⟨k, rfl⟩ : ∃ k, index = k + 1 := ⟨index - 1, by omega⟩
  obtain ⟨b, rest, hs⟩ := List.exists_cons_of_length_pos (by omega : 0 < s.stack.length)
  rw [stackSwap_some hs (List.getElem?_eq_getElem h)]
  simp [hs]

/-! ### The code buffer -/

theorem setCode_of_set (bytes : List Byte) {s : State} (h : s.codeSet = true) :
    setCode bytes s = .error .memoryPermissionsError := by
  simp [setCode, h]

theorem setCode_of_unset (bytes : List Byte) {s : State} (h : s.codeSet = false) :
    setCode bytes s = .ok { s with code := bytes, codeSet := true } := by
  simp [setCode, h]

/-- Once the code is loaded, a load is refused in every run state and changes nothing (46_external_interfaces.md
R141). -/
theorem hostEvent_load_of_set (bytes : List Byte) {s : State} (h : s.codeSet = true) :
    hostEvent (.load bytes) s = .next (.loadRefused .memoryPermissionsError, s) := by
  cases hr : s.runState with
  | unloaded => simp [hostEvent, hostLoad, hr, acceptLoad, setCode_of_set bytes h]
  | ready | running => simp [hostEvent, hostLoad, hr]
  | halted | faulted => simp [hostEvent, hostLoad, hr, h]

/-- The load of a fresh machine (20_memory.md R42). -/
theorem hostEvent_load_unloaded {bytes : List Byte} {s : State} (hr : s.runState = .unloaded)
    (hs : s.codeSet = false) (hfits : Config.admits s.cfg.codeMax bytes.length = true) :
    hostEvent (.load bytes) s = .next (.done, { s with code := bytes, codeSet := true, runState := .ready }) := by
  simp [hostEvent, hostLoad, hr, acceptLoad, setCode_of_unset bytes hs, hfits, State.withRunState]

/-- A run started with no code fails at once (45_processor_loop.md R125). -/
theorem hostRun_ready_empty {s : State} (hr : s.runState = .ready) (hc : s.code = []) :
    hostRun s = takeFault .noCodeLoaded s := by
  simp [hostRun, hr, startRun, hc]

/-- The code and whether it is loaded are the same in two states. -/
structure SameCode (s t : State) : Prop where
  code : t.code = s.code
  codeSet : t.codeSet = s.codeSet

theorem SameCode.codeAt {s t : State} (h : SameCode s t) (a : Nat) : codeAt t a = codeAt s a :=
  congrArg (·[a]?) h.code

theorem EndsIn.sameCode {s t : State} {o : Host.Outcome State Fault Refusal} (h : EndsIn s (Progress s) o)
    (ho : o = .next t) : SameCode s t :=
  h.next_state ho (fun _ hp => ⟨hp.code, hp.codeSet⟩) (fun _ _ hp _ => ⟨hp.code, hp.codeSet⟩)

theorem exec_sameCode {i : Instr} {s t : State} (h : exec i s = .next t) : SameCode s t :=
  (exec_progress i s).sameCode h

theorem step_sameCode {s t : State} (h : step s = .next t) : SameCode s t := by
  rcases step_progress s with ⟨-, e⟩ | ⟨-, -, e⟩ | ⟨-, -, hend⟩
  · cases h.symm.trans e; exact ⟨rfl, rfl⟩
  · cases h.symm.trans e; exact ⟨rfl, rfl⟩
  · have same := hend.sameCode h
    exact ⟨same.code, same.codeSet⟩

theorem startRun_sameCode (s : State) : SameCode s (startRun s) := by
  unfold startRun
  split <;> exact ⟨rfl, rfl⟩

theorem hostRun_sameCode (s : State) : SameCode s (hostRun s) := by
  unfold hostRun
  split
  · exact startRun_sameCode s
  · exact startRun_sameCode s
  all_goals exact ⟨rfl, rfl⟩

/-- After the load, no event but reset writes the code (20_memory.md R43). -/
theorem hostEvent_sameCode {e : HostEvent} {r : HostReply} {s t : State} (he : e ≠ .reset) (hs : s.codeSet = true)
    (h : hostEvent e s = .next (r, t)) : SameCode s t := by
  cases e with
  | load bytes => cases h.symm.trans (hostEvent_load_of_set bytes hs); exact ⟨rfl, rfl⟩
  | run => cases h; exact hostRun_sameCode s
  | reset => exact absurd rfl he
  | inputByte b =>
    simp only [hostEvent, hostInput] at h
    split at h <;> cases h
    exact ⟨rfl, rfl⟩
  | inputEnd => cases h; exact ⟨rfl, rfl⟩

/-! ### Another code of the same length -/

/-- The state with another code, where that is as long as its own: a change of the code that keeps `LEN`. -/
def State.recode (code : List Byte) (s : State) : State :=
  { s with code := if code.length = s.code.length then code else s.code }

theorem State.recode_of_length {code : List Byte} {s : State} (h : code.length = s.code.length) :
    s.recode code = { s with code := code } := by
  simp [State.recode, h]

theorem State.recode_length (code : List Byte) (s : State) : (s.recode code).code.length = s.code.length := by
  simp only [State.recode]
  split <;> simp [*]

theorem passive_recode (code : List Byte) : Passive (State.recode code) :=
  ⟨fun _ => rfl, fun _ => rfl, fun _ => rfl, State.recode_length code, fun _ _ => rfl, fun _ _ => rfl,
    fun _ _ => rfl⟩

theorem readByte_recode (code : List Byte) (s : State) :
    readByte (s.recode code) = (readByte s).mapState (State.recode code) := by
  have hinput : (s.recode code).input = s.input := rfl
  have hended : (s.recode code).inputEnded = s.inputEnded := rfl
  simp only [readByte, hinput, hended]
  split
  · rfl
  · split <;> rfl

/-- No instruction looks at a byte of the code. -/
theorem exec_recode (code : List Byte) (i : Instr) (s : State) :
    exec i (s.recode code) = mapNext (State.recode code) (exec i s) := by
  by_cases hread : i = .read
  · subst hread
    exact execRead_passive (passive_recode code) s (readByte_recode code s)
  by_cases hwrite : i = .write
  · subst hwrite
    exact execWrite_passive (passive_recode code) s fun _ _ => rfl
  exact exec_passive (passive_recode code) i s hread hwrite

/-- The step commutes with a passive change that leaves the byte at `IP` and the run state, and with which the
instructions commute. -/
theorem step_passive {f : State → State} (hf : Passive f) {s : State} (hbyte : codeAt (f s) s.ip = codeAt s s.ip)
    (hrun : (f s).runState = s.runState) (hhalt : f (s.withRunState .halted) = (f s).withRunState .halted)
    (hexec : ∀ i, exec i (f (s.withIP (s.ip + 1))) = mapNext f (exec i (s.withIP (s.ip + 1)))) :
    step (f s) = mapNext f (step s) := by
  have hloop : loopStep (f s) = mapNext f (loopStep s) := by
    simp only [loopStep, fetch, hf.ip, hbyte]
    cases codeAt s s.ip with
    | none => simp [mapNext, hhalt]
    | some b =>
      simp only [decodeAndExecute, ← hf.withIP]
      cases decode b with
      | error e => cases e; simp [mapNext, hf.takeFault]
      | ok i => exact hexec i
  simp only [step, processorStep, hrun]
  cases s.runState with
  | running => exact hloop
  | unloaded | ready | halted | faulted => rfl

theorem step_recode {code : List Byte} {s : State} (hlen : code.length = s.code.length)
    (hbyte : code[s.ip]? = s.code[s.ip]?) :
    step (s.recode code) = mapNext (State.recode code) (step s) := by
  refine step_passive (passive_recode code) ?_ rfl rfl fun i => exec_recode code i _
  simpa [codeAt, State.recode_of_length hlen] using hbyte

/-! ### What an instruction does to the stack -/

/-- How an instruction ends, as the stack sees it: done, with the size changed as R51 lists; with the fault entry; or
waiting at a read. In each the elements below its operands stay where they are. -/
inductive StackEffect (i : Instr) (s : State) (o : Host.Outcome State Fault Refusal) : Prop where
  | done {t : State} (below : s.stack.drop (reach i) <:+ t.stack)
      (size : (t.stack.length : Int) = (s.stack.length : Int) + sizeChange i) (e : o = .next t)
  | raised {k : FaultKind} {t : State} (below : s.stack.drop (reach i) <:+ t.stack) (e : o = .next (takeFault k t))
  | waits (hi : i = .read) (hin : s.input = []) (e : o = .next (awaitStream s))

/-- A fault taken before any sub-step has written the stack. -/
theorem StackEffect.raised_self {i : Instr} {s : State} {o : Host.Outcome State Fault Refusal} {k : FaultKind}
    (e : o = .next (takeFault k s)) : StackEffect i s o :=
  .raised (List.drop_suffix _ _) e

/-- A fault taken when fewer elements than the operands stand on the stack. -/
theorem StackEffect.raised_short {i : Instr} {s t : State} {o : Host.Outcome State Fault Refusal} {k : FaultKind}
    (h : s.stack.length < reach i) (e : o = .next (takeFault k t)) : StackEffect i s o :=
  .raised (by simp [List.drop_eq_nil_of_le h.le]) e

theorem binaryOperation_stackEffect {i : Instr} (f : Byte → Byte → Byte) (hreach : reach i = 2)
    (hsize : sizeChange i = -1) (s : State) : StackEffect i s (binaryOperation f s) := by
  rcases binaryOperation_cases f s with ⟨h, e⟩ | ⟨a, b, rest, h, -, e⟩ | ⟨a, b, rest, h, -, e⟩
  · exact .raised_short (by omega) e
  · exact .raised (by simp [h, hreach]) e
  · exact .done (by simp [h, hreach]) (by simp [h, hsize]) e

theorem execDivide_stackEffect (s : State) : StackEffect .divide s (execDivide s) := by
  rcases execDivide_cases s with ⟨h, e⟩ | ⟨a, rest, h, e⟩ | ⟨a, b, rest, h, -, -, e⟩ |
    ⟨a, b, rest, h, -, -, e⟩ | ⟨a, b, rest, h, -, -, -, e⟩
  · exact .raised_short h e
  · exact .raised (by simp [h, reach]) e
  · exact .raised (by simp [h, reach]) e
  · exact .raised (by simp [h, reach]) e
  · exact .done (by simp [h, reach, List.suffix_cons_iff]) (by simp [h, sizeChange]) e

theorem execRead_stackEffect (s : State) : StackEffect .read s (execRead s) := by
  rcases execRead_cases s with ⟨v, rest, -, -, e⟩ | ⟨v, rest, -, -, e⟩ | ⟨-, -, e⟩ | ⟨hin, -, e⟩
  · exact .done (by simp [reach]) (by simp [sizeChange]) e
  · exact .raised (by simp [reach]) e
  · exact .raised_self e
  · exact .waits rfl hin e

theorem execWrite_stackEffect (s : State) : StackEffect .write s (execWrite s) := by
  rcases execWrite_cases s with ⟨-, e⟩ | ⟨v, rest, h, e⟩
  · exact .raised_self e
  · exact .done (by simp [h, reach]) (by simp [h, sizeChange]) e

theorem execJump_stackEffect (s : State) : StackEffect .jump s (execJump s) := by
  rcases execJump_cases s with ⟨-, e⟩ | ⟨offset, rest, h, -, e⟩ | ⟨offset, rest, h, -, e⟩
  · exact .raised_self e
  · exact .done (by simp [h, reach]) (by simp [h, sizeChange]) e
  · exact .raised (by simp [h, reach]) e

theorem execCall_stackEffect (s : State) : StackEffect .call s (execCall s) := by
  rcases execCall_cases s with ⟨-, e⟩ | ⟨offset, rest, h, -, e⟩ | ⟨offset, rest, h, -, -, e⟩ |
    ⟨offset, rest, h, -, -, -, e⟩ | ⟨offset, rest, h, -, -, -, e⟩
  · exact .raised_self e
  · exact .raised (by simp [h, reach]) e
  · exact .raised (by simp [h, reach]) e
  · exact .done (by simp [h, reach]) (by simp [h, sizeChange]) e
  · exact .raised (by simp [h, reach]) e

theorem execRet_stackEffect (s : State) : StackEffect .ret s (execRet s) := by
  rcases execRet_cases s with ⟨-, e⟩ | ⟨value, rest, h, -, e⟩ | ⟨value, rest, h, -, e⟩
  · exact .raised_self e
  · exact .done (by simp [h, reach]) (by simp [h, sizeChange]) e
  · exact .raised (by simp [h, reach]) e

theorem execCje_stackEffect (s : State) : StackEffect .cje s (execCje s) := by
  rcases execCje_cases s with ⟨h, e⟩ | ⟨offset, x, y, rest, h, -, e⟩ | ⟨offset, x, y, rest, h, -, -, e⟩ |
    ⟨offset, x, y, rest, h, -, -, e⟩
  · exact .raised_short h e
  · exact .done (by simp [h, reach]) (by simp [h, sizeChange]; omega) e
  · exact .done (by simp [h, reach]) (by simp [h, sizeChange]; omega) e
  · exact .raised (by simp [h, reach]) e

theorem execJse_stackEffect (s : State) : StackEffect .jse s (execJse s) := by
  rcases execJse_cases s with ⟨-, e⟩ | ⟨offset, b, rest, h, e⟩ | ⟨offset, h, -, e⟩ | ⟨offset, h, -, e⟩
  · exact .raised_self e
  · exact .done (by simp [h, reach]) (by simp [h, sizeChange]) e
  · exact .done (by simp [h, reach]) (by simp [h, sizeChange]) e
  · exact .raised (by simp [h, reach]) e

theorem execPop_stackEffect (s : State) : StackEffect .pop s (execPop s) := by
  rcases execPop_cases s with ⟨-, e⟩ | ⟨b, rest, h, e⟩
  · exact .raised_self e
  · exact .done (by simp [h, reach]) (by simp [h, sizeChange]) e

/-- Everything an encodable swap can do: an index past the size, or the head exchanged for an element of the tail. -/
theorem execSwap_cases_of_ne_zero {index : BitVec 5} (hindex : index ≠ 0) (s : State) :
    execSwap index s = .next (takeFault .indexOutOfBounds s) ∨
    ∃ k b rest x, index.toNat = k + 1 ∧ s.stack = b :: rest ∧
      execSwap index s = .next (s.withStack (x :: rest.set k b)) := by
  obtain ⟨k, hk⟩ := Nat.exists_eq_succ_of_ne_zero fun h => hindex (BitVec.eq_of_toNat_eq h)
  rcases execSwap_cases index s with ⟨-, e⟩ | ⟨b, rest, x, h, -, e⟩
  · exact .inl e
  · exact .inr ⟨k, b, rest, x, hk, h, by simpa [hk] using e⟩

theorem execSwap_stackEffect (index : BitVec 5) (s : State) : StackEffect (.swap index) s (execSwap index s) := by
  by_cases hzero : index = 0
  · subst hzero
    rcases execSwap_cases 0 s with ⟨-, e⟩ | ⟨b, rest, x, h, -, e⟩
    · exact .raised_self e
    · exact .done (by simp [h, reach]) (by simp [h, sizeChange]) e
  · rcases execSwap_cases_of_ne_zero hzero s with e | ⟨k, b, rest, x, hk, h, e⟩
    · exact .raised_self e
    · have below : rest.drop (k + 1) <:+ x :: rest.set k b := by
        rw [← List.drop_set_of_lt (Nat.lt_succ_self k)]
        exact (List.drop_suffix _ _).trans (List.suffix_cons _ _)
      have size : sizeChange (.swap index) = 0 := if_neg hzero
      exact .done (by simpa [h, reach, hk] using below) (by simp [h, size]) e

theorem execLoad_stackEffect (offset : BitVec 6) (s : State) : StackEffect (.load offset) s (execLoad offset s) := by
  rcases execLoad_cases offset s with ⟨-, e⟩ | ⟨v, -, -, e⟩ | ⟨v, -, -, e⟩
  · exact .raised_self e
  · exact .raised_self e
  · exact .done (by simp [reach]) (by simp [sizeChange]) e

theorem execPush_stackEffect (value : BitVec 7) (s : State) : StackEffect (.push value) s (execPush value s) := by
  rcases execPush_cases value s with ⟨-, e⟩ | ⟨-, e⟩
  · exact .raised_self e
  · exact .done (by simp [reach]) (by simp [sizeChange]) e

theorem exec_stackEffect (i : Instr) (s : State) : StackEffect i s (exec i s) := by
  cases i with
  | add => exact binaryOperation_stackEffect aluAdd rfl rfl s
  | subtract => exact binaryOperation_stackEffect aluSubtract rfl rfl s
  | divide => exact execDivide_stackEffect s
  | multiply => exact binaryOperation_stackEffect aluMultiply rfl rfl s
  | read => exact execRead_stackEffect s
  | write => exact execWrite_stackEffect s
  | jump => exact execJump_stackEffect s
  | call => exact execCall_stackEffect s
  | ret => exact execRet_stackEffect s
  | cje => exact execCje_stackEffect s
  | jse => exact execJse_stackEffect s
  | pop => exact execPop_stackEffect s
  | swap index => exact execSwap_stackEffect index s
  | load offset => exact execLoad_stackEffect offset s
  | push value => exact execPush_stackEffect value s

theorem exec_keeps_below {i : Instr} {s t : State} (h : exec i s = .next t) :
    s.stack.drop (reach i) <:+ t.stack := by
  cases exec_stackEffect i s with
  | done below _ e => cases h.symm.trans e; exact below
  | raised below e => cases h.symm.trans e; exact below
  | waits _ _ e => cases h.symm.trans e; exact List.drop_suffix _ _

/-- Counted from the bottom, a list agrees with every list that ends in the same elements. -/
theorem getElem?_reverse_of_drop_suffix {α : Type} {u v : List α} {r n : Nat} (h : u.drop r <:+ v)
    (hn : n < u.length - r) : v.reverse[n]? = u.reverse[n]? := by
  have ends_in (w : List α) : (w ++ u.drop r).reverse[n]? = (u.drop r).reverse[n]? := by
    rw [List.reverse_append, List.getElem?_append_left (by simpa using hn)]
  obtain ⟨w, rfl⟩ := h
  rw [ends_in, ← ends_in (u.take r), List.take_append_drop]

/-- An encodable swap keeps the size and every position other than the two it names. -/
theorem execSwap_keeps_others {index : BitVec 5} {s t : State} (hindex : index ≠ 0)
    (h : execSwap index s = .next t) :
    t.stack.length = s.stack.length ∧ ∀ n, n ≠ 0 → n ≠ index.toNat → t.stack[n]? = s.stack[n]? := by
  rcases execSwap_cases_of_ne_zero hindex s with e | ⟨k, b, rest, x, hk, hs, e⟩ <;> cases h.symm.trans e
  · exact ⟨rfl, fun _ _ _ => rfl⟩
  · refine ⟨by simp [hs], fun n hn hni => ?_⟩
    cases n with
    | zero => exact absurd rfl hn
    | succ m =>
      have hm : k ≠ m := by omega
      simp [hs, List.getElem?_set_ne hm]

/-! ### The obligations -/

/-- Settles O38, by the common end of the two stacks; for swap also by its exchange of two positions. -/
theorem stackBelowOperandsUnchanged : Obligations.StackBelowOperandsUnchanged := by
  intro i s t h
  refine ⟨fun n hn => getElem?_reverse_of_drop_suffix (exec_keeps_below h) hn, ?_⟩
  rintro index rfl hwf
  exact execSwap_keeps_others (by simpa [Instr.wellFormed] using hwf) h

/-- Settles O39: the sub-steps keep the code, and after the load only reset writes it. -/
theorem codeNeverChanges : Obligations.CodeNeverChanges := by
  refine ⟨fun i s t h => ?_, fun s t h => ?_, fun e r s t he hs h => ?_⟩
  · have same := exec_sameCode h
    exact ⟨same.code, same.codeSet, same.codeAt⟩
  · have same := step_sameCode h
    exact ⟨same.code, same.codeSet, same.codeAt⟩
  · have same := hostEvent_sameCode he hs h
    exact ⟨same.codeSet.trans hs, same.codeAt⟩

/-- Settles O40, read off each instruction's effect on the stack. -/
theorem sizeLaws : Obligations.SizeLaws := by
  intro i s t _ h hfault hwait
  cases exec_stackEffect i s with
  | done _ size e => cases h.symm.trans e; exact size
  | raised _ e => cases h.symm.trans e; exact absurd rfl hfault
  | waits hi hin _ => exact absurd ⟨hi, hin⟩ hwait

/-- Settles O49: another code of the same length with the same byte at `IP` is a change the step does not see. -/
theorem onlyFetchedByteMatters : Obligations.OnlyFetchedByteMatters := by
  intro s t code hlen hbyte h
  have hlen' : code.length = t.code.length := by rw [(step_sameCode h).code, hlen]
  rw [← State.recode_of_length hlen, ← State.recode_of_length hlen', step_recode hlen hbyte, h]
  rfl

/-- Settles O52: the load of the empty sequence sets `CODE_SET`, and `LEN` stays 0. -/
theorem setCodeIsWriteOnce : Obligations.SetCodeIsWriteOnce := by
  refine ⟨fun bytes s => ⟨setCode_of_set bytes, setCode_of_unset bytes⟩, fun s hinv hr => ?_⟩
  have hunset : s.codeSet = false := by
    have agrees := hinv.run_state
    simp only [RunStateAgrees, hr] at agrees
    exact agrees.1
  refine ⟨{ s with code := [], codeSet := true, runState := .ready }, ?_, rfl, rfl, fun bytes => ?_, ?_⟩
  · exact hostEvent_load_unloaded hr hunset (Config.admits_zero _)
  · exact hostEvent_load_of_set bytes rfl
  · rw [hostEvent, hostRun_ready_empty rfl rfl]
    rfl

/-- Settles O14: the two checks of `push`, in their order. -/
theorem pushPrimitive : Obligations.PushPrimitive :=
  fun _ s => ⟨stackPush_high s, stackPush_full, stackPush_room⟩

/-- Settles O15; the push onto the empty stack leaves one element for the pop. -/
theorem popPrimitive : Obligations.PopPrimitive := by
  refine fun s => ⟨stackPop_nil, fun h rest => stackPop_cons, fun v hv hs hroom => ?_⟩
  have hr : HasRoom s := by simpa [HasRoom, hs] using hroom
  rw [stackPush_room hv hr, Result.andThen_ok, stackPop_cons rfl, State.withStack_withStack,
    State.withStack_self]

/-- Settles O16: past the size, and below it by the room for one more. -/
theorem loadPrimitive : Obligations.LoadPrimitive := by
  refine fun offset s => ⟨fun h => stackLoad_none (List.getElem?_eq_none h), fun h hroom => ?_, fun h hfull => ?_⟩
  · rw [stackLoad_lt h, stackPush_byte hroom]
    rfl
  · rw [stackLoad_lt h, stackPush_full (by omega) (not_not.mp hfull)]

/-- Settles O17: the byte of index 0 is pop, and the primitive's three cases. -/
theorem swapPrimitive : Obligations.SwapPrimitive := by
  refine ⟨fun b h => absurd (wellFormed_of_decode h) (by decide), fun index s => ⟨?_, ?_, ?_⟩⟩
  · exact fun h => stackSwap_none (List.getElem?_eq_none h)
  · rintro hpos rfl
    obtain ⟨b, rest, hs⟩ := List.exists_cons_of_length_pos hpos
    rw [stackSwap_some hs (x := b) (by simp [hs]), if_pos rfl, hs]
    rfl
  · exact fun h hpos => stackSwap_exchange h hpos

end Machine
end Sys2Proof
end

section
/-! The statements of spec 30_encoding.md: the decoder's two tables as the bytes they hold, decoding and encoding as
inverses of each other, the illegal bytes, and the assembler. -/

namespace Sys2Proof

/-! ### The tables (R62 to R64) -/

theorem mem_of_matchExact {b : Byte} {i : Instr} {table : List (Byte × Instr)} (h : matchExact b table = some i) :
    (b, i) ∈ table := by
  induction table with
  | nil => simp [matchExact] at h
  | cons entry rest ih =>
    rw [matchExact] at h
    split at h
    case isTrue hb => cases h; simp [hb]
    case isFalse => exact List.mem_cons_of_mem _ (ih h)

theorem matchExact_eq_none_iff {b : Byte} {table : List (Byte × Instr)} :
    matchExact b table = none ↔ b ∉ table.map Prod.fst := by
  induction table with
  | nil => simp [matchExact]
  | cons entry rest ih =>
    rw [matchExact]
    split
    case isTrue hb => simp [hb]
    case isFalse hb => simp [hb, ih]

/-- The three ranges in one equation (R64, R65). -/
theorem matchRange_rangeTable (b : Byte) :
    matchRange b rangeTable =
      if 0x20 ≤ b.toNat ∧ b.toNat ≤ 0x3F then some (.swap (BitVec.ofNat 5 (b.toNat - 0x20)))
      else if 0x40 ≤ b.toNat ∧ b.toNat ≤ 0x7E then some (.load (BitVec.ofNat 6 (b.toNat - 0x40)))
      else if 0x80 ≤ b.toNat ∧ b.toNat ≤ 0xFF then some (.push (BitVec.ofNat 7 (b.toNat - 0x80)))
      else none := rfl

/-- The three ranges leave out the bytes below `0x20`, and `0x7F`. -/
theorem matchRange_rangeTable_eq_none_iff {b : Byte} :
    matchRange b rangeTable = none ↔ b.toNat < 0x20 ∨ b.toNat = 0x7F := by
  have hb := b.isLt
  rw [matchRange_rangeTable]
  split_ifs <;> simp only [false_iff, true_iff] <;> omega

/-- The exact opcodes end where the range of swap begins. -/
theorem matchExact_exactTable_of_gt {b : Byte} (h : 0x20 < b.toNat) : matchExact b exactTable = none := by
  have opcode_le : ∀ opcode ∈ exactTable.map Prod.fst, opcode.toNat ≤ 0x20 := by decide
  exact matchExact_eq_none_iff.mpr fun hb => absurd (opcode_le b hb) (by omega)

/-- An exact entry holds the byte and the name of an instruction that has no argument. -/
theorem exactTable_entry {e : Byte × Instr} (h : e ∈ exactTable) :
    e.2.wellFormed = true ∧ e.2.argument = none ∧ encode e.2 = e.1 := by
  revert e
  decide

/-! ### The decoder -/

theorem decode_eq_ok {b : Byte} {i : Instr} (h : decode b = .ok i) :
    matchExact b exactTable = some i ∨ matchRange b rangeTable = some i := by
  unfold decode at h
  cases he : matchExact b exactTable with
  | some j => rw [he] at h; cases h; exact .inl rfl
  | none =>
    cases hr : matchRange b rangeTable with
    | some j => rw [he, hr] at h; cases h; exact .inr rfl
    | none => rw [he, hr] at h; cases h

theorem decode_eq_error_iff {b : Byte} :
    decode b = .error .unknownOpcode ↔ matchExact b exactTable = none ∧ matchRange b rangeTable = none := by
  unfold decode
  cases matchExact b exactTable <;> cases matchRange b rangeTable <;> simp

/-- A byte above the exact opcodes is decoded by its range. -/
theorem decode_of_gt {b : Byte} {i : Instr} (h : 0x20 < b.toNat) (hr : matchRange b rangeTable = some i) :
    decode b = .ok i := by
  rw [decode, matchExact_exactTable_of_gt h, hr]

/-! ### The bytes of the range opcodes (R64, R65) -/

@[simp] theorem toNat_encode_swap (index : BitVec 5) : (encode (.swap index)).toNat = 0x20 + index.toNat := by
  have := index.isLt
  rw [encode, BitVec.toNat_ofNat]
  omega

@[simp] theorem toNat_encode_load (offset : BitVec 6) : (encode (.load offset)).toNat = 0x40 + offset.toNat := by
  have := offset.isLt
  rw [encode, BitVec.toNat_ofNat]
  omega

@[simp] theorem toNat_encode_push (value : BitVec 7) : (encode (.push value)).toNat = 0x80 + value.toNat := by
  have := value.isLt
  rw [encode, BitVec.toNat_ofNat]
  omega

theorem wellFormed_swap_iff {index : BitVec 5} : (Instr.swap index).wellFormed = true ↔ 1 ≤ index.toNat := by
  rw [Instr.wellFormed, bne_iff_ne]
  bv_omega

theorem wellFormed_load_iff {offset : BitVec 6} : (Instr.load offset).wellFormed = true ↔ offset.toNat ≤ 62 := by
  rw [Instr.wellFormed, bne_iff_ne]
  bv_omega

theorem decode_encode_swap {index : BitVec 5} (h : 1 ≤ index.toNat) :
    decode (encode (.swap index)) = .ok (.swap index) := by
  have := index.isLt
  apply decode_of_gt
  · rw [toNat_encode_swap]; omega
  · rw [matchRange_rangeTable, toNat_encode_swap, if_pos (by omega)]
    simp

theorem decode_encode_load {offset : BitVec 6} (h : offset.toNat ≤ 62) :
    decode (encode (.load offset)) = .ok (.load offset) := by
  apply decode_of_gt
  · rw [toNat_encode_load]; omega
  · rw [matchRange_rangeTable, toNat_encode_load, if_neg (by omega), if_pos (by omega)]
    simp

theorem decode_encode_push (value : BitVec 7) : decode (encode (.push value)) = .ok (.push value) := by
  have := value.isLt
  apply decode_of_gt
  · rw [toNat_encode_push]; omega
  · rw [matchRange_rangeTable, toNat_encode_push, if_neg (by omega), if_neg (by omega), if_pos (by omega)]
    simp

/-! ### The encoder after the decoder -/

/-- A byte of a range is its minimum plus the argument, which the bit field holds whole. -/
theorem encode_of_matchRange {b : Byte} {i : Instr} (h : matchRange b rangeTable = some i) : encode i = b := by
  have := b.isLt
  apply BitVec.eq_of_toNat_eq
  rw [matchRange_rangeTable] at h
  split_ifs at h <;> cases h
  · rw [toNat_encode_swap, BitVec.toNat_ofNat]; omega
  · rw [toNat_encode_load, BitVec.toNat_ofNat]; omega
  · rw [toNat_encode_push, BitVec.toNat_ofNat]; omega

theorem encode_of_decode {b : Byte} {i : Instr} (h : decode b = .ok i) : encode i = b := by
  rcases decode_eq_ok h with hexact | hrange
  · exact (exactTable_entry (mem_of_matchExact hexact)).2.2
  · exact encode_of_matchRange hrange

/-! ### The assembler (R73) -/

theorem assemble_swap {n : Nat} (h : 1 ≤ n) (h' : n ≤ 31) :
    assemble "swap" (some n) = some (BitVec.ofNat 8 (0x20 + n)) := if_pos ⟨rfl, h, h'⟩

theorem assemble_load {n : Nat} (h : n ≤ 62) : assemble "load" (some n) = some (BitVec.ofNat 8 (0x40 + n)) := by
  simp [assemble, h]

theorem assemble_push {n : Nat} (h : n ≤ 127) : assemble "push" (some n) = some (BitVec.ofNat 8 (0x80 + n)) := by
  simp [assemble, h]

/-- A name alone assembles only by an exact entry. -/
theorem assemble_none {name : String} {b : Byte} (h : assemble name none = some b) :
    ∃ e ∈ exactTable, e.2.name = name ∧ e.1 = b := by
  obtain ⟨e, hfind, hbyte⟩ := Option.map_eq_some_iff.mp h
  exact ⟨e, List.mem_of_find?_eq_some hfind, by simpa using List.find?_some hfind, hbyte⟩

/-- A name with an argument assembles only by a range and an argument within it. -/
theorem assemble_some {name : String} {n : Nat} {b : Byte} (h : assemble name (some n) = some b) :
    (name = "swap" ∧ 1 ≤ n ∧ n ≤ 31 ∧ BitVec.ofNat 8 (0x20 + n) = b) ∨
    (name = "load" ∧ n ≤ 62 ∧ BitVec.ofNat 8 (0x40 + n) = b) ∨
    (name = "push" ∧ n ≤ 127 ∧ BitVec.ofNat 8 (0x80 + n) = b) := by
  simp only [assemble] at h
  split_ifs at h with hswap hload hpush
  · exact .inl ⟨hswap.1, hswap.2.1, hswap.2.2, Option.some.inj h⟩
  · exact .inr (.inl ⟨hload.1, hload.2, Option.some.inj h⟩)
  · exact .inr (.inr ⟨hpush.1, hpush.2, Option.some.inj h⟩)

/-! ### The step on an illegal byte (R68) -/

namespace Machine

theorem step_of_decode_error {s : State} {b : Byte} (hr : s.runState = .running) (hc : codeAt s s.ip = some b)
    (hd : decode b = .error .unknownOpcode) :
    step s = .next (takeFault .unknownOpcode (s.withIP (s.ip + 1))) := by
  rcases step_cases s with ⟨hn, -⟩ | ⟨-, hn, -⟩ | ⟨-, -, -, -, e⟩ | ⟨b', i, -, hc', hd', -⟩
  · exact absurd hr hn
  · cases hc.symm.trans hn
  · exact e
  · cases hc.symm.trans hc'
    cases hd.symm.trans hd'

end Machine

/-! ### The statements -/

/-- Settles O1: the exact bytes by the table, each range byte by its bit field. -/
theorem decodeInvertsEncode : Obligations.DecodeInvertsEncode := by
  intro i h
  cases i with
  | swap index => exact decode_encode_swap (wellFormed_swap_iff.mp h)
  | load offset => exact decode_encode_load (wellFormed_load_iff.mp h)
  | push value => exact decode_encode_push value
  | _ => rfl

/-- Settles O2, by the table that matched the byte. -/
theorem encodeInvertsDecode : Obligations.EncodeInvertsDecode :=
  fun _ _ h => ⟨wellFormed_of_decode h, encode_of_decode h⟩

/-- Settles O4: the illegal bytes are the ones below `0x20` that are no exact opcode, and `0x7F`. -/
theorem illegalBytesFault : Obligations.IllegalBytesFault := by
  unfold Obligations.IllegalBytesFault
  intro illegal
  have decode_error_iff (b : Byte) : decode b = .error .unknownOpcode ↔ b ∈ illegal := by
    rw [decode_eq_error_iff, matchExact_eq_none_iff, matchRange_rangeTable_eq_none_iff]
    revert b
    decide
  exact ⟨decode_error_iff, fun s b hr hc hb => Machine.step_of_decode_error hr hc ((decode_error_iff b).mpr hb)⟩

/-- Settles O5: the names and arguments that assemble are those of the exact entries and of the three ranges. -/
theorem assembleGivesEncoding : Obligations.AssembleGivesEncoding := by
  refine ⟨fun i h => ?_, fun name n b h => ?_⟩
  · cases i with
    | swap index => exact assemble_swap (wellFormed_swap_iff.mp h) (by have := index.isLt; omega)
    | load offset => exact assemble_load (wellFormed_load_iff.mp h)
    | push value => exact assemble_push (by have := value.isLt; omega)
    | _ => decide
  · cases n with
    | none =>
      obtain ⟨e, he, hname, hbyte⟩ := assemble_none h
      obtain ⟨hwf, hargument, hencode⟩ := exactTable_entry he
      exact ⟨e.2, hwf, hname, hargument, hencode.trans hbyte⟩
    | some n =>
      rcases assemble_some h with ⟨rfl, hmin, hmax, rfl⟩ | ⟨rfl, hmax, rfl⟩ | ⟨rfl, hmax, rfl⟩
      · have hfield : (BitVec.ofNat 5 n).toNat = n := Nat.mod_eq_of_lt (by omega)
        exact ⟨.swap (BitVec.ofNat 5 n), wellFormed_swap_iff.mpr (by omega), rfl, congrArg some hfield,
          by rw [encode, hfield]⟩
      · have hfield : (BitVec.ofNat 6 n).toNat = n := Nat.mod_eq_of_lt (by omega)
        exact ⟨.load (BitVec.ofNat 6 n), wellFormed_load_iff.mpr (by omega), rfl, congrArg some hfield,
          by rw [encode, hfield]⟩
      · have hfield : (BitVec.ofNat 7 n).toNat = n := Nat.mod_eq_of_lt (by omega)
        exact ⟨.push (BitVec.ofNat 7 n), rfl, rfl, congrArg some hfield, by rw [encode, hfield]⟩

/-- Settles O3, by running the decoder on the eight bytes. -/
theorem decodeSampleBytes : Obligations.DecodeSampleBytes := by
  unfold Obligations.DecodeSampleBytes
  decide

end Sys2Proof
end

section
/-! The statements of spec 41_arithmetic.md: the arithmetic unit as operations modulo 256, and the four arithmetic
instructions on a machine within its `STACK_MAX`. -/

namespace Sys2Proof
namespace Machine

/-! ### The arithmetic unit (R80 to R84) -/

theorem toNat_aluAdd (a b : Byte) : (aluAdd a b).toNat = (a.toNat + b.toNat) % 256 := by
  simp [aluAdd]

theorem toNat_aluMultiply (a b : Byte) : (aluMultiply a b).toNat = (a.toNat * b.toNat) % 256 := by
  simp [aluMultiply]

theorem aluSubtract_eq_ofInt (a b : Byte) :
    aluSubtract a b = BitVec.ofInt 8 (((a.toNat : Int) - (b.toNat : Int)) % 256) := by
  rw [aluSubtract, ← BitVec.ofInt_natCast, Int.toNat_of_nonneg (Int.emod_nonneg _ (by decide))]

theorem toNat_aluSubtract (a b : Byte) :
    ((aluSubtract a b).toNat : Int) = ((a.toNat : Int) - (b.toNat : Int)) % 256 := by
  have residue_nonneg : 0 ≤ ((a.toNat : Int) - b.toNat) % 256 := Int.emod_nonneg _ (by decide)
  simp [aluSubtract_eq_ofInt, BitVec.toNat_ofInt, residue_nonneg]

/-- The unit's addition is the addition of words, which has no signedness. -/
theorem aluAdd_eq_add (a b : Byte) : aluAdd a b = a + b :=
  BitVec.eq_of_toNat_eq (by rw [toNat_aluAdd, BitVec.toNat_add])

/-- The unit's subtraction is the subtraction of words. -/
theorem aluSubtract_eq_sub (a b : Byte) : aluSubtract a b = a - b := by
  apply BitVec.eq_of_toNat_eq
  have exact_residue := toNat_aluSubtract a b
  rw [BitVec.toNat_sub]
  omega

/-- The unit's multiplication is the multiplication of words. -/
theorem aluMultiply_eq_mul (a b : Byte) : aluMultiply a b = a * b :=
  BitVec.eq_of_toNat_eq (by rw [toNat_aluMultiply, BitVec.toNat_mul])

theorem ofInt_sub_eq_sub {w : Nat} (x y : Int) :
    BitVec.ofInt w (x - y) = BitVec.ofInt w x - BitVec.ofInt w y := by
  rw [Int.sub_eq_add_neg, BitVec.ofInt_add, BitVec.ofInt_neg, ← BitVec.sub_eq_add_neg]

/-- Quotient and remainder of two bytes are bytes, so that narrowing them to 8 bits loses nothing. -/
theorem aluDivideWithRemainder_spec {a b : Byte} (h : b ≠ 0) :
    ∃ q r : Byte, aluDivideWithRemainder a b = .ok (q, r) ∧
      q.toNat = a.toNat / b.toNat ∧ r.toNat = a.toNat % b.toNat ∧
      a.toNat = q.toNat * b.toNat + r.toNat ∧ r.toNat < b.toNat := by
  have divisor_pos : 0 < b.toNat := Nat.pos_of_ne_zero fun hz => h (BitVec.eq_of_toNat_eq hz)
  have hq : (BitVec.ofNat 8 (a.toNat / b.toNat)).toNat = a.toNat / b.toNat :=
    Nat.mod_eq_of_lt ((Nat.div_le_self _ _).trans_lt a.isLt)
  have hr : (BitVec.ofNat 8 (a.toNat % b.toNat)).toNat = a.toNat % b.toNat :=
    Nat.mod_eq_of_lt ((Nat.mod_le _ _).trans_lt a.isLt)
  refine ⟨_, _, aluDivideWithRemainder_nonzero h, hq, hr, ?_, ?_⟩
  · rw [hq, hr, Nat.div_add_mod']
  · rw [hr]
    exact Nat.mod_lt _ divisor_pos

/-! ### The instructions (R85 to R88) -/

/-- Below the size of a stack within `STACK_MAX` there is room: no push of an arithmetic instruction overflows. -/
theorem StackFits.hasRoom_withStack {s : State} {v : List Byte} (h : StackFits s)
    (hv : v.length < s.stack.length) : HasRoom (s.withStack v) := by
  intro hfull
  have hmax : s.cfg.stackMax = some v.length := hfull
  simp only [StackFits, hmax, Config.admits, decide_eq_true_eq] at h
  omega

theorem binaryOperation_of_two (f : Byte → Byte → Byte) {s : State} {a b : Byte} {rest : List Byte}
    (hfits : StackFits s) (h : s.stack = a :: b :: rest) :
    binaryOperation f s = .next (s.withStack (f a b :: rest)) := by
  have room : HasRoom (s.withStack rest) := hfits.hasRoom_withStack (by simp [h])
  simp only [binaryOperation, popTwo_cons h, Result.andThen_ok, stackPush_byte room, State.withStack_stack,
    State.withStack_withStack, finish_ok]

theorem binaryOperation_of_short (f : Byte → Byte → Byte) {s : State} (h : s.stack.length < 2) :
    binaryOperation f s = .next (faultedWith .emptyStack [] s) := by
  rw [binaryOperation, popTwo_short h, Result.andThen_raise, finish_raise]
  rfl

/-- The meaning add, subtract and multiply share. -/
theorem binaryOperation_meaning (f : Byte → Byte → Byte) {s : State} (hfits : StackFits s) :
    (∀ a b rest, s.stack = a :: b :: rest → binaryOperation f s = .next { s with stack := f a b :: rest }) ∧
    (s.stack.length < 2 → binaryOperation f s = .next (faultedWith .emptyStack [] s)) :=
  ⟨fun _ _ _ h => binaryOperation_of_two f hfits h, binaryOperation_of_short f⟩

theorem execDivide_of_short {s : State} (h : s.stack.length < 2) :
    execDivide s = .next (faultedWith .emptyStack [] s) := by
  rw [execDivide, popTwo_short h, Result.andThen_raise, finish_raise]
  rfl

theorem execDivide_of_zero {s : State} {a : Byte} {rest : List Byte} (h : s.stack = a :: 0 :: rest) :
    execDivide s = .next (faultedWith .divisionByZero rest s) := by
  simp only [execDivide, popTwo_cons h, Result.andThen_ok, aluDivideWithRemainder_zero, raiseOr_error,
    Result.andThen_raise, finish_raise]
  rfl

theorem execDivide_of_nonzero {s : State} {a b : Byte} {rest : List Byte} (hfits : StackFits s)
    (h : s.stack = a :: b :: rest) (hb : b ≠ 0) :
    execDivide s = .next (s.withStack
      (BitVec.ofNat 8 (a.toNat % b.toNat) :: BitVec.ofNat 8 (a.toNat / b.toNat) :: rest)) := by
  have room : HasRoom (s.withStack rest) := hfits.hasRoom_withStack (by simp [h])
  have room' (q : Byte) : HasRoom (s.withStack (q :: rest)) := hfits.hasRoom_withStack (by simp [h])
  simp only [execDivide, popTwo_cons h, Result.andThen_ok, aluDivideWithRemainder_nonzero hb, raiseOr_ok,
    stackPush_byte room, State.withStack_stack, State.withStack_withStack, stackPush_byte (room' _), finish_ok]

/-! ### The obligations -/

/-- Settles O13: narrowing to a word commutes with the three operations, and undoes the signed reading. -/
theorem aluSignedReadingAgrees : Obligations.AluSignedReadingAgrees := by
  refine fun a b => ⟨?_, ?_, ?_⟩
  · rw [aluAdd_eq_add, BitVec.ofInt_add, BitVec.ofInt_toInt, BitVec.ofInt_toInt]
  · rw [aluSubtract_eq_sub, ofInt_sub_eq_sub, BitVec.ofInt_toInt, BitVec.ofInt_toInt]
  · rw [aluMultiply_eq_mul, BitVec.ofInt_mul, BitVec.ofInt_toInt, BitVec.ofInt_toInt]

/-- Settles O11. -/
theorem aluWrapsModulo256 : Obligations.AluWrapsModulo256 :=
  fun a b => ⟨toNat_aluAdd a b, toNat_aluSubtract a b, toNat_aluMultiply a b⟩

/-- Settles O12, by whether the divisor is zero. -/
theorem aluDividesUnsigned : Obligations.AluDividesUnsigned := by
  refine fun a b => ⟨?_, aluDivideWithRemainder_spec⟩
  rintro rfl
  exact aluDivideWithRemainder_zero a

/-- Settles O19: add is the shared meaning with the unit's addition. -/
theorem addMeaning : Obligations.AddMeaning :=
  ⟨rfl, fun _ hfits => binaryOperation_meaning aluAdd hfits⟩

/-- Settles O20: subtract is the shared meaning with the unit's subtraction, its residue read as an integer. -/
theorem subtractMeaning : Obligations.SubtractMeaning := by
  refine ⟨rfl, fun s hfits => ?_⟩
  simp only [← aluSubtract_eq_ofInt]
  exact binaryOperation_meaning aluSubtract hfits

/-- Settles O21, by the number of elements and whether the divisor is zero. -/
theorem divideMeaning : Obligations.DivideMeaning :=
  ⟨rfl, fun _ hfits => ⟨fun _ _ _ h hb => execDivide_of_nonzero hfits h hb, fun _ _ h => execDivide_of_zero h,
    execDivide_of_short⟩⟩

/-- Settles O22: multiply is the shared meaning with the unit's multiplication. -/
theorem multiplyMeaning : Obligations.MultiplyMeaning :=
  ⟨rfl, fun _ hfits => binaryOperation_meaning aluMultiply hfits⟩

end Machine
end Sys2Proof
end

section
/-! The statements of spec 42_io.md: read and write on each state of the streams, the read that waits, and the step
as a consumer of `IN` and a producer of `OUT`. -/

namespace Sys2Proof
namespace Machine

/-! ### read and write, case by case (R90, R91) -/

theorem readByte_cons {s : State} {v : Byte} {rest : List Byte} (h : s.input = v :: rest) :
    readByte s = .ok v (s.withInput rest) := by
  simp [readByte, h]

theorem execRead_of_room {s : State} {v : Byte} {rest : List Byte} (h : s.input = v :: rest) (hroom : HasRoom s) :
    execRead s = .next ((s.withInput rest).withStack (v :: s.stack)) := by
  have room : HasRoom (s.withInput rest) := hroom
  rw [execRead, readByte_cons h, Result.andThen_ok, stackPush_byte room, finish_ok, State.withInput_stack]

theorem execRead_of_full {s : State} {v : Byte} {rest : List Byte} (h : s.input = v :: rest)
    (hfull : ¬ HasRoom s) : execRead s = .next (takeFault .stackOverflow (s.withInput rest)) := by
  have full : (s.withInput rest).cfg.stackMax = some (s.withInput rest).stack.length := not_not.mp hfull
  rw [execRead, readByte_cons h, Result.andThen_ok, stackPush_full (by omega) full, finish_raise]

theorem execRead_of_ended {s : State} (h : s.input = []) (hend : s.inputEnded = true) :
    execRead s = .next (takeFault .inputEndOfStream s) := by
  simp [execRead, readByte, h, hend]

theorem execRead_of_waiting {s : State} (h : s.input = []) (hend : s.inputEnded = false) :
    execRead s = .next (awaitStream s) := by
  simp [execRead, readByte, h, hend]

theorem execWrite_of_nil {s : State} (h : s.stack = []) : execWrite s = .next (takeFault .emptyStack s) := by
  rw [execWrite, stackPop_nil h, Result.andThen_raise, finish_raise]

theorem execWrite_of_cons {s : State} {v : Byte} {rest : List Byte} (h : s.stack = v :: rest) :
    execWrite s = .next ((s.withStack rest).withOutput (s.output ++ [v])) := by
  rw [execWrite, stackPop_cons h, Result.andThen_ok, writeChar_eq, finish_ok, State.withStack_output]

/-! ### The step at a read (R90, R93) -/

/-- The one byte of read is `0x08`. -/
theorem decode_eq_read {b : Byte} (h : decode b = .ok .read) : b = 0x08 := (encode_of_decode h).symm

theorem step_of_read {s : State} (hr : s.runState = .running) (hc : codeAt s s.ip = some 0x08) :
    step s = execRead (s.withIP (s.ip + 1)) :=
  step_currentInstr (currentInstr_eq_some.mpr ⟨hr, 0x08, hc, rfl⟩)

theorem hostEvent_inputByte (b : Byte) {s : State} (hend : s.inputEnded = false) :
    hostEvent (.inputByte b) s = .next (.done, s.withInput (s.input ++ [b])) := by
  simp [hostEvent, hostInput, hend]

/-! ### Changes of the streams that an instruction does not see -/

/-- A passive change that leaves the input stream alone commutes with the call of it. -/
theorem readByte_passive {f : State → State} {s : State} (hinput : (f s).input = s.input)
    (hended : (f s).inputEnded = s.inputEnded) (hwith : ∀ v, f (s.withInput v) = (f s).withInput v) :
    readByte (f s) = (readByte s).mapState f := by
  simp only [readByte, hinput, hended]
  cases s.input with
  | cons b rest => simp [Result.mapState, hwith]
  | nil => cases s.inputEnded <;> rfl

/-- An instruction commutes with a passive change that the stream call it makes, if any, commutes with. -/
theorem exec_passive_of_streams {f : State → State} (hf : Passive f) {i : Instr} {s : State}
    (hread : i = .read → readByte (f s) = (readByte s).mapState f)
    (hwrite : i = .write → ∀ v s, writeChar v (f s) = (writeChar v s).mapState f) :
    exec i (f s) = mapNext f (exec i s) := by
  by_cases hr : i = .read
  · subst hr
    exact execRead_passive hf s (hread rfl)
  by_cases hw : i = .write
  · subst hw
    exact execWrite_passive hf s (hwrite rfl)
  exact exec_passive hf i s hr hw

/-- Another input stream is a passive change. -/
theorem passive_withInput (v : List Byte) : Passive (fun s => s.withInput v) :=
  ⟨fun _ => rfl, fun _ => rfl, fun _ => rfl, fun _ => rfl, fun _ _ => rfl, fun _ _ => rfl, fun _ _ => rfl⟩

/-- The state with output before what it has written. -/
def State.prependOutput (earlier : List Byte) (s : State) : State := s.withOutput (earlier ++ s.output)

/-- Output written earlier is a passive change. -/
theorem passive_prependOutput (earlier : List Byte) : Passive (State.prependOutput earlier) :=
  ⟨fun _ => rfl, fun _ => rfl, fun _ => rfl, fun _ => rfl, fun _ _ => rfl, fun _ _ => rfl, fun _ _ => rfl⟩

theorem writeChar_prependOutput (earlier : List Byte) (v : Byte) (s : State) :
    writeChar v (s.prependOutput earlier) = (writeChar v s).mapState (State.prependOutput earlier) := by
  simp [Result.mapState, State.prependOutput, State.withOutput]

/-- Only read sees the input stream. -/
theorem exec_withInput {i : Instr} (hi : i ≠ .read) (v : List Byte) (s : State) :
    exec i (s.withInput v) = mapNext (fun s => s.withInput v) (exec i s) :=
  exec_passive_of_streams (passive_withInput v) (fun hread => absurd hread hi) fun _ _ _ => rfl

/-- Only write touches the record of output. -/
theorem exec_withOutput {i : Instr} (hi : i ≠ .write) (o : List Byte) (s : State) :
    exec i (s.withOutput o) = mapNext (fun s => s.withOutput o) (exec i s) :=
  exec_passive_of_streams (passive_withOutput o)
    (fun _ => readByte_passive (f := fun s => s.withOutput o) rfl rfl fun _ => rfl) fun hwrite => absurd hwrite hi

/-- No instruction, write included, sees what was written before. -/
theorem exec_prependOutput (earlier : List Byte) (i : Instr) (s : State) :
    exec i (s.prependOutput earlier) = mapNext (State.prependOutput earlier) (exec i s) :=
  exec_passive_of_streams (passive_prependOutput earlier) (fun _ => readByte_passive rfl rfl fun _ => rfl)
    fun _ => writeChar_prependOutput earlier

theorem readByte_moreInput {s : State} (h : s.input ≠ []) (more : List Byte) :
    readByte (s.withInput (s.input ++ more)) =
      (readByte s).mapState fun s => s.withInput (s.input ++ more) := by
  obtain ⟨b, rest, hs⟩ := List.exists_cons_of_ne_nil h
  rw [readByte_cons hs, hs, readByte_cons (rest := rest ++ more) rfl]
  rfl

/-- With a byte of input there, no instruction, read included, sees what stands behind it. -/
theorem exec_moreInput (i : Instr) {s : State} (h : s.input ≠ []) (more : List Byte) :
    exec i (s.withInput (s.input ++ more)) = mapNext (fun s => s.withInput (s.input ++ more)) (exec i s) :=
  exec_passive_of_streams (passive_moreInput more) (fun _ => readByte_moreInput h more) fun _ _ _ => rfl

theorem step_prependOutput (earlier : List Byte) (s : State) :
    step (s.prependOutput earlier) = mapNext (State.prependOutput earlier) (step s) :=
  step_passive (passive_prependOutput earlier) rfl rfl rfl fun i => exec_prependOutput earlier i _

theorem step_moreInput {s : State} (h : s.input ≠ []) (more : List Byte) :
    step (s.withInput (s.input ++ more)) = mapNext (fun s => s.withInput (s.input ++ more)) (step s) :=
  step_passive (passive_moreInput more) rfl rfl rfl fun i => exec_moreInput i (s := s.withIP (s.ip + 1)) h more

theorem mapNext_eq_next {f : State → State} {o : Host.Outcome State Fault Refusal} {t : State}
    (h : mapNext f o = .next t) : ∃ u, o = .next u ∧ f u = t := by
  cases o <;> cases h
  exact ⟨_, rfl, rfl⟩

/-! ### What an instruction does to the streams (R92) -/

/-- An instruction begun in a state that a change leaves alone, and that commutes with the change, ends in such a
state. -/
theorem exec_fixes {f : State → State} {i : Instr} {s t : State} (hs : f s = s)
    (hf : exec i (f s) = mapNext f (exec i s)) (h : exec i s = .next t) : f t = t := by
  rw [hs, h] at hf
  exact (Host.Outcome.next.inj hf).symm

theorem exec_keeps_input {i : Instr} {s t : State} (hi : i ≠ .read) (h : exec i s = .next t) :
    t.input = s.input :=
  (congrArg State.input (exec_fixes (f := fun u => u.withInput s.input) rfl (exec_withInput hi s.input s) h)).symm

theorem exec_keeps_output {i : Instr} {s t : State} (hi : i ≠ .write) (h : exec i s = .next t) :
    t.output = s.output :=
  (congrArg State.output (exec_fixes (f := fun u => u.withOutput s.output) rfl (exec_withOutput hi s.output s) h)).symm

theorem execRead_input {s t : State} (h : execRead s = .next t) :
    t.input = s.input ∨ ∃ b, s.input = b :: t.input := by
  rcases execRead_cases s with ⟨b, rest, hin, -, e⟩ | ⟨b, rest, hin, -, e⟩ | ⟨-, -, e⟩ | ⟨-, -, e⟩ <;>
    cases h.symm.trans e
  · exact .inr ⟨b, hin⟩
  · exact .inr ⟨b, hin⟩
  · exact .inl rfl
  · exact .inl rfl

theorem execWrite_output_length_le {s t : State} (h : execWrite s = .next t) :
    t.output.length ≤ s.output.length + 1 := by
  rcases execWrite_cases s with ⟨-, e⟩ | ⟨v, rest, -, e⟩ <;> cases h.symm.trans e <;> simp

theorem exec_output_length_le {i : Instr} {s t : State} (h : exec i s = .next t) :
    t.output.length ≤ s.output.length + 1 := by
  by_cases hwrite : i = .write
  · subst hwrite
    exact execWrite_output_length_le h
  · rw [exec_keeps_output hwrite h]
    exact Nat.le_succ _

theorem step_output_length_le {s t : State} (h : step s = .next t) : t.output.length ≤ s.output.length + 1 := by
  rcases step_cases s with ⟨-, e⟩ | ⟨-, -, e⟩ | ⟨b, -, -, -, e⟩ | ⟨b, i, -, -, -, e⟩
  · cases h.symm.trans e; exact Nat.le_succ _
  · cases h.symm.trans e; exact Nat.le_succ _
  · cases h.symm.trans e; exact Nat.le_succ _
  · exact exec_output_length_le (s := s.withIP (s.ip + 1)) (e.symm.trans h)

theorem step_input {s t : State} (h : step s = .next t) :
    t.input = s.input ∨ ∃ b, s.input = b :: t.input ∧ s.runState = .running ∧ codeAt s s.ip = some 0x08 := by
  rcases step_cases s with ⟨-, e⟩ | ⟨-, -, e⟩ | ⟨b, -, -, -, e⟩ | ⟨b, i, hr, hc, hd, e⟩
  · cases h.symm.trans e; exact .inl rfl
  · cases h.symm.trans e; exact .inl rfl
  · cases h.symm.trans e; exact .inl rfl
  · by_cases hread : i = .read
    · subst hread
      refine (execRead_input (e.symm.trans h)).imp id fun ⟨v, hin⟩ => ⟨v, hin, hr, ?_⟩
      rw [hc, decode_eq_read hd]
    · exact .inl (exec_keeps_input (s := s.withIP (s.ip + 1)) hread (e.symm.trans h))

/-! ### The obligations -/

/-- Settles O24: the fetch increment is taken back, and with the delivered byte the same read completes. -/
theorem readWaitsForInput : Obligations.ReadWaitsForInput := by
  intro s hr hc hin hend
  refine ⟨?_, fun b hroom => ⟨s.withInput [b], ?_, ?_⟩⟩
  · rw [step_of_read hr hc, execRead_of_waiting (s := s.withIP (s.ip + 1)) hin hend, awaitStream_withIP_succ,
      State.withIP_self]
  · rw [hostEvent_inputByte b hend, hin, List.nil_append]
  · rw [step_of_read (s := s.withInput [b]) hr hc, State.withInput_ip,
      execRead_of_room (s := (s.withInput [b]).withIP (s.ip + 1)) rfl hroom, ← hin]
    rfl

/-- Settles O37, read off the cases of the two instructions. -/
theorem streamFrame : Obligations.StreamFrame := by
  refine fun s t => ⟨fun h => ?_, fun h => ?_⟩
  · rcases execRead_cases s with ⟨v, rest, -, -, e⟩ | ⟨v, rest, -, -, e⟩ | ⟨-, -, e⟩ | ⟨hin, hend, e⟩ <;>
      cases h.symm.trans e
    · exact .inl rfl
    · exact .inr (.inr ⟨_, rfl⟩)
    · exact .inr (.inr ⟨_, rfl⟩)
    · exact .inr (.inl ⟨hin, hend, rfl⟩)
  · rcases execWrite_cases s with ⟨-, e⟩ | ⟨v, rest, -, e⟩ <;> cases h.symm.trans e
    · exact .inr ⟨_, rfl⟩
    · exact .inl rfl

/-- Settles O47: every record of output is one prepended to the empty record, and the step from the empty record
writes the same. -/
theorem outputGrowsAndIsNeverRead : Obligations.OutputGrowsAndIsNeverRead := by
  intro s t h
  have from_empty (o : List Byte) : { s with output := o } = (s.withOutput []).prependOutput o := by
    simp [State.prependOutput, State.withOutput]
  have step_from (o : List Byte) :
      step { s with output := o } = mapNext (State.prependOutput o) (step (s.withOutput [])) := by
    rw [from_empty, step_prependOutput]
  obtain ⟨u, hu, rfl⟩ := mapNext_eq_next ((step_from s.output).symm.trans h)
  refine ⟨u.output, step_output_length_le hu, rfl, fun o => ?_⟩
  rw [step_from, hu]
  rfl

/-- Settles O48: only read takes a byte, and bytes behind the first are a change that no instruction sees. -/
theorem inputConsumedInOrder : Obligations.InputConsumedInOrder := by
  refine fun s t h => ⟨step_input h, fun hin more => ?_⟩
  have behind := step_moreInput hin more
  rwa [h] at behind

/-- Settles O23, by the input stream and the room on the stack. -/
theorem readMeaning : Obligations.ReadMeaning :=
  ⟨rfl, fun _ => ⟨fun _ _ => execRead_of_room, fun _ _ => execRead_of_full, execRead_of_ended⟩⟩

/-- Settles O25, by whether the stack is empty. -/
theorem writeMeaning : Obligations.WriteMeaning := by
  refine ⟨rfl, fun s => ⟨fun _ _ => execWrite_of_cons, fun h => ?_⟩⟩
  rw [faultedWith, ← h]
  exact execWrite_of_nil h

end Machine
end Sys2Proof
end

section
/-! The statements of spec 43_control.md: the five control transfers case by case, and how far a transfer reaches. -/

namespace Sys2Proof
namespace Machine

/-! ### An instruction that ends with the write of `IP`, or that begins with a pop (R24, R105) -/

theorem finish_setIP_in {n : Nat} {s : State} (h : n ≤ s.code.length) :
    finish (setIP (n : Int) s) = .next (s.withIP n) := by
  rw [setIP_in h, finish_ok]

theorem finish_setIP_out {n : Nat} {s : State} (h : s.code.length < n) :
    finish (setIP (n : Int) s) = .next (takeFault .ipOutOfBounds s) := by
  rw [setIP_out h, finish_raise]

/-- On the empty stack an instruction that first pops one value does nothing else. -/
theorem finish_stackPop_nil {s : State} (f : Byte → State → Result Unit) (h : s.stack = []) :
    finish ((stackPop s).andThen f) = .next (faultedWith .emptyStack [] s) := by
  rw [stackPop_nil h, Result.andThen_raise, finish_raise, faultedWith, ← h]
  rfl

/-! ### The instructions with their operands there: the write of `IP` that each ends with (R100 to R104) -/

theorem execJump_of_cons {s : State} {offset : Byte} {rest : List Byte} (h : s.stack = offset :: rest) :
    execJump s = finish (setIP ((s.ip + offset.toNat : Nat) : Int) (s.withStack rest)) := by
  rw [execJump, stackPop_cons h, Result.andThen_ok, relativeTarget_eq, State.withStack_ip]

theorem execCall_of_low {s : State} {offset : Byte} {rest : List Byte} (hfits : StackFits s)
    (h : s.stack = offset :: rest) (hip : s.ip ≤ 255) :
    execCall s =
      finish (setIP ((s.ip + offset.toNat : Nat) : Int) (s.withStack (BitVec.ofNat 8 s.ip :: rest))) := by
  have room : HasRoom (s.withStack rest) := hfits.hasRoom_withStack (by simp [h])
  simp only [execCall, stackPop_cons h, Result.andThen_ok, State.withStack_ip, stackPush_room hip room,
    State.withStack_stack, State.withStack_withStack, relativeTarget_eq]

theorem execCall_of_high {s : State} {offset : Byte} {rest : List Byte} (h : s.stack = offset :: rest)
    (hip : 255 < s.ip) : execCall s = .next (faultedWith .valueOutOfRange rest s) := by
  rw [execCall, stackPop_cons h, Result.andThen_ok, State.withStack_ip, stackPush_high _ hip,
    Result.andThen_raise, finish_raise]
  rfl

theorem execRet_of_cons {s : State} {value : Byte} {rest : List Byte} (h : s.stack = value :: rest) :
    execRet s = finish (setIP (value.toNat : Int) (s.withStack rest)) := by
  rw [execRet, stackPop_cons h, Result.andThen_ok, absoluteTarget_eq]

theorem execCje_of_eq {s : State} {offset x y : Byte} {rest : List Byte}
    (h : s.stack = offset :: x :: y :: rest) (hxy : x = y) :
    execCje s = finish (setIP ((s.ip + offset.toNat : Nat) : Int) (s.withStack rest)) := by
  rw [execCje, popThree_cons h, Result.andThen_ok, if_pos ((cjeTaken_iff x y).mpr hxy), relativeTarget_eq,
    State.withStack_ip]

theorem execCje_of_ne {s : State} {offset x y : Byte} {rest : List Byte}
    (h : s.stack = offset :: x :: y :: rest) (hxy : x ≠ y) : execCje s = .next (s.withStack rest) := by
  rw [execCje, popThree_cons h, Result.andThen_ok, if_neg (mt (cjeTaken_iff x y).mp hxy), finish_ok]

theorem execCje_of_short {s : State} (h : s.stack.length < 3) :
    execCje s = .next (faultedWith .emptyStack [] s) := by
  rw [execCje, popThree_short h, Result.andThen_raise, finish_raise]
  rfl

theorem execJse_of_single {s : State} {offset : Byte} (h : s.stack = [offset]) :
    execJse s = finish (setIP ((s.ip + offset.toNat : Nat) : Int) (s.withStack [])) := by
  rw [execJse, stackPop_cons h, Result.andThen_ok, if_pos ((jseTaken_iff _).mpr rfl), relativeTarget_eq,
    State.withStack_ip]

theorem execJse_of_more {s : State} {offset b : Byte} {rest : List Byte} (h : s.stack = offset :: b :: rest) :
    execJse s = .next (s.withStack (b :: rest)) := by
  rw [execJse, stackPop_cons h, Result.andThen_ok, if_neg (mt (jseTaken_iff _).mp (List.cons_ne_nil b rest)),
    finish_ok]

/-! ### How far a transfer reaches (R102, R105) -/

/-- `IP` in `t` is at or after `IP` in `s`, by no more than a byte can say. -/
def ForwardByByte (s t : State) : Prop := s.ip ≤ t.ip ∧ t.ip ≤ s.ip + 255

theorem forwardByByte_of_ip_eq {s t : State} (h : t.ip = s.ip) : ForwardByByte s t := by
  rw [ForwardByByte, h]
  omega

theorem forwardByByte_of_offset {s t : State} (offset : Byte) (h : t.ip = s.ip + offset.toNat) :
    ForwardByByte s t := by
  have hbyte : offset.toNat < 256 := offset.isLt
  rw [ForwardByByte, h]
  omega

theorem execJump_forward {s t : State} (h : execJump s = .next t) : ForwardByByte s t := by
  rcases execJump_cases s with ⟨-, e⟩ | ⟨offset, rest, -, -, e⟩ | ⟨offset, rest, -, -, e⟩ <;>
    cases h.symm.trans e
  · exact forwardByByte_of_ip_eq rfl
  · exact forwardByByte_of_offset offset rfl
  · exact forwardByByte_of_ip_eq rfl

theorem execCall_forward {s t : State} (h : execCall s = .next t) : ForwardByByte s t := by
  rcases execCall_cases s with ⟨-, e⟩ | ⟨offset, rest, -, -, e⟩ | ⟨offset, rest, -, -, -, e⟩ |
    ⟨offset, rest, -, -, -, -, e⟩ | ⟨offset, rest, -, -, -, -, e⟩ <;> cases h.symm.trans e
  · exact forwardByByte_of_ip_eq rfl
  · exact forwardByByte_of_ip_eq rfl
  · exact forwardByByte_of_ip_eq rfl
  · exact forwardByByte_of_offset offset rfl
  · exact forwardByByte_of_ip_eq rfl

theorem execCje_forward {s t : State} (h : execCje s = .next t) : ForwardByByte s t := by
  rcases execCje_cases s with ⟨-, e⟩ | ⟨offset, x, y, rest, -, -, e⟩ | ⟨offset, x, y, rest, -, -, -, e⟩ |
    ⟨offset, x, y, rest, -, -, -, e⟩ <;> cases h.symm.trans e
  · exact forwardByByte_of_ip_eq rfl
  · exact forwardByByte_of_ip_eq rfl
  · exact forwardByByte_of_offset offset rfl
  · exact forwardByByte_of_ip_eq rfl

theorem execJse_forward {s t : State} (h : execJse s = .next t) : ForwardByByte s t := by
  rcases execJse_cases s with ⟨-, e⟩ | ⟨offset, b, rest, -, e⟩ | ⟨offset, -, -, e⟩ | ⟨offset, -, -, e⟩ <;>
    cases h.symm.trans e
  · exact forwardByByte_of_ip_eq rfl
  · exact forwardByByte_of_ip_eq rfl
  · exact forwardByByte_of_offset offset rfl
  · exact forwardByByte_of_ip_eq rfl

/-- A ret that does not fault has put `IP` at a byte. -/
theorem execRet_ip_le {s t : State} (h : execRet s = .next t) (hrun : t.runState ≠ .faulted) : t.ip ≤ 255 := by
  rcases execRet_cases s with ⟨-, e⟩ | ⟨value, rest, -, -, e⟩ | ⟨value, rest, -, -, e⟩ <;>
    cases h.symm.trans e
  · exact absurd rfl hrun
  · exact Nat.lt_succ_iff.mp value.isLt
  · exact absurd rfl hrun

/-! ### The obligations -/

/-- Settles O46: a relative transfer keeps `IP` or adds the offset, and ret puts it at a byte. -/
theorem relativeTransfersGoForward : Obligations.RelativeTransfersGoForward := by
  refine fun s t => ⟨?_, execRet_ip_le⟩
  rintro i (rfl | rfl | rfl | rfl) h
  · exact execJump_forward h
  · exact execCall_forward h
  · exact execCje_forward h
  · exact execJse_forward h

/-- Settles O26, by whether there is an offset and whether the target is within the code. -/
theorem jumpMeaning : Obligations.JumpMeaning :=
  ⟨rfl, fun _ => ⟨fun _ _ h hin => (execJump_of_cons h).trans (finish_setIP_in hin),
    fun _ _ h hout => (execJump_of_cons h).trans (finish_setIP_out hout), finish_stackPop_nil _⟩⟩

/-- Settles O27: the pop of the offset makes room for a return address that is a byte. -/
theorem callMeaning : Obligations.CallMeaning :=
  ⟨rfl, fun _ hfits => ⟨fun _ _ h hip hin => (execCall_of_low hfits h hip).trans (finish_setIP_in hin),
    fun _ _ h hip hout => (execCall_of_low hfits h hip).trans (finish_setIP_out hout),
    fun _ _ => execCall_of_high, finish_stackPop_nil _⟩⟩

/-- Settles O28, by whether there is a value and whether it is within the code. -/
theorem retMeaning : Obligations.RetMeaning :=
  ⟨rfl, fun _ => ⟨fun _ _ h hin => (execRet_of_cons h).trans (finish_setIP_in hin),
    fun _ _ h hout => (execRet_of_cons h).trans (finish_setIP_out hout), finish_stackPop_nil _⟩⟩

/-- Settles O29: the target is looked at in the equal case only. -/
theorem cjeMeaning : Obligations.CjeMeaning :=
  ⟨rfl, fun _ => ⟨fun _ _ _ _ h hxy hin => (execCje_of_eq h hxy).trans (finish_setIP_in hin),
    fun _ _ _ _ h hxy hout => (execCje_of_eq h hxy).trans (finish_setIP_out hout),
    fun _ _ _ _ => execCje_of_ne, execCje_of_short⟩⟩

/-- Settles O30: the target is looked at when the offset was alone on the stack. -/
theorem jseMeaning : Obligations.JseMeaning :=
  ⟨rfl, fun _ => ⟨fun _ h hin => (execJse_of_single h).trans (finish_setIP_in hin),
    fun _ h hout => (execJse_of_single h).trans (finish_setIP_out hout),
    fun _ _ _ => execJse_of_more, finish_stackPop_nil _⟩⟩

end Machine
end Sys2Proof
end

section
/-! The statements of spec 44_stack.md: pop, swap, load and push case by case, and the one instruction whose push can
fail its value check. -/

namespace Sys2Proof
namespace Machine

/-! ### pop, swap, load and push, case by case (R115 to R118) -/

theorem execPop_of_cons {s : State} {h : Byte} {rest : List Byte} (hs : s.stack = h :: rest) :
    execPop s = .next (s.withStack rest) := by
  rw [execPop, stackPop_cons hs, Result.andThen_ok, finish_ok]

theorem execSwap_of_exchange {index : BitVec 5} {s : State} {h x : Byte} (hpos : 1 ≤ index.toNat)
    (hh : s.stack[0]? = some h) (hx : s.stack[index.toNat]? = some x) :
    execSwap index s = .next (s.withStack ((s.stack.set 0 x).set index.toNat h)) := by
  obtain ⟨-, rfl⟩ := List.getElem?_eq_some_iff.mp hh
  obtain ⟨hlt, rfl⟩ := List.getElem?_eq_some_iff.mp hx
  rw [execSwap, immediate, stackSwap_exchange hlt hpos, finish_ok]

theorem execSwap_of_beyond {index : BitVec 5} {s : State} (h : s.stack.length ≤ index.toNat) :
    execSwap index s = .next (takeFault .indexOutOfBounds s) := by
  rw [execSwap, immediate, stackSwap_none (List.getElem?_eq_none h), finish_raise]

theorem execLoad_of_room {offset : BitVec 6} {s : State} {v : Byte} (h : s.stack[offset.toNat]? = some v)
    (hroom : HasRoom s) : execLoad offset s = .next (s.withStack (v :: s.stack)) := by
  rw [execLoad, immediate, stackLoad_some h, stackPush_byte hroom, finish_ok]

theorem execLoad_of_full {offset : BitVec 6} {s : State} (h : offset.toNat < s.stack.length)
    (hfull : ¬ HasRoom s) : execLoad offset s = .next (takeFault .stackOverflow s) := by
  rw [execLoad, immediate, stackLoad_lt h, stackPush_full (by omega) (not_not.mp hfull), finish_raise]

theorem execLoad_of_beyond {offset : BitVec 6} {s : State} (h : s.stack.length ≤ offset.toNat) :
    execLoad offset s = .next (takeFault .indexOutOfBounds s) := by
  rw [execLoad, immediate, stackLoad_none (List.getElem?_eq_none h), finish_raise]

/-- The immediate of push passes the value check (R119). -/
theorem execPush_of_room (value : BitVec 7) {s : State} (hroom : HasRoom s) :
    execPush value s = .next (s.withStack (BitVec.ofNat 8 value.toNat :: s.stack)) := by
  rw [execPush, immediate, stackPush_room (by omega) hroom, finish_ok]

theorem execPush_of_full (value : BitVec 7) {s : State} (hfull : ¬ HasRoom s) :
    execPush value s = .next (takeFault .stackOverflow s) := by
  rw [execPush, immediate, stackPush_full (by omega) (not_not.mp hfull), finish_raise]

/-! ### The kind an instruction raises (R119, 60_exceptions.md R167) -/

/-- How an instruction ends, as `FAULT` sees it: done or waiting, with `FAULT` and `RUN_STATE` as they were; with a
kind listed for it; or with an overflow of a stack that held more than `STACK_MAX` when the instruction began. -/
inductive FaultEffect (i : Instr) (s : State) (o : Host.Outcome State Fault Refusal) : Prop where
  | unfaulted {t : State} (e : o = .next t) (fault : t.fault = s.fault) (runState : t.runState = s.runState)
  | listed {k : FaultKind} {t : State} (e : o = .next (takeFault k t)) (hk : k ∈ raisable i := by simp [raisable])
  | overfull {t : State} (e : o = .next (takeFault .stackOverflow t)) (hs : ¬ StackFits s)

/-- Only a stack above `STACK_MAX` is full with fewer elements than it holds. -/
theorem not_stackFits_of_full {s : State} {v : List Byte} (hfull : s.cfg.stackMax = some v.length)
    (hv : v.length < s.stack.length) : ¬ StackFits s :=
  fun hfits => hfits.hasRoom_withStack hv hfull

theorem binaryOperation_faultEffect {i : Instr} (f : Byte → Byte → Byte) (hi : .emptyStack ∈ raisable i)
    (s : State) : FaultEffect i s (binaryOperation f s) := by
  rcases binaryOperation_cases f s with ⟨-, e⟩ | ⟨a, b, rest, h, hm, e⟩ | ⟨a, b, rest, -, -, e⟩
  · exact .listed e hi
  · exact .overfull e (not_stackFits_of_full hm (by simp [h]))
  · exact .unfaulted e rfl rfl

theorem execDivide_faultEffect (s : State) : FaultEffect .divide s (execDivide s) := by
  rcases execDivide_cases s with ⟨-, e⟩ | ⟨a, rest, -, e⟩ | ⟨a, b, rest, h, -, hm, e⟩ |
    ⟨a, b, rest, h, -, hm, e⟩ | ⟨a, b, rest, -, -, -, -, e⟩
  · exact .listed e
  · exact .listed e
  · exact .overfull e (not_stackFits_of_full hm (by simp [h]))
  · exact .overfull e (not_stackFits_of_full (v := b :: rest) hm (by simp [h]))
  · exact .unfaulted e rfl rfl

theorem execRead_faultEffect (s : State) : FaultEffect .read s (execRead s) := by
  rcases execRead_cases s with ⟨v, rest, -, -, e⟩ | ⟨v, rest, -, -, e⟩ | ⟨-, -, e⟩ | ⟨-, -, e⟩
  · exact .unfaulted e rfl rfl
  · exact .listed e
  · exact .listed e
  · exact .unfaulted e rfl rfl

theorem execWrite_faultEffect (s : State) : FaultEffect .write s (execWrite s) := by
  rcases execWrite_cases s with ⟨-, e⟩ | ⟨v, rest, -, e⟩
  · exact .listed e
  · exact .unfaulted e rfl rfl

theorem execJump_faultEffect (s : State) : FaultEffect .jump s (execJump s) := by
  rcases execJump_cases s with ⟨-, e⟩ | ⟨offset, rest, -, -, e⟩ | ⟨offset, rest, -, -, e⟩
  · exact .listed e
  · exact .unfaulted e rfl rfl
  · exact .listed e

theorem execCall_faultEffect (s : State) : FaultEffect .call s (execCall s) := by
  rcases execCall_cases s with ⟨-, e⟩ | ⟨offset, rest, -, -, e⟩ | ⟨offset, rest, h, -, hm, e⟩ |
    ⟨offset, rest, -, -, -, -, e⟩ | ⟨offset, rest, -, -, -, -, e⟩
  · exact .listed e
  · exact .listed e
  · exact .overfull e (not_stackFits_of_full hm (by simp [h]))
  · exact .unfaulted e rfl rfl
  · exact .listed e

theorem execRet_faultEffect (s : State) : FaultEffect .ret s (execRet s) := by
  rcases execRet_cases s with ⟨-, e⟩ | ⟨value, rest, -, -, e⟩ | ⟨value, rest, -, -, e⟩
  · exact .listed e
  · exact .unfaulted e rfl rfl
  · exact .listed e

theorem execCje_faultEffect (s : State) : FaultEffect .cje s (execCje s) := by
  rcases execCje_cases s with ⟨-, e⟩ | ⟨offset, x, y, rest, -, -, e⟩ | ⟨offset, x, y, rest, -, -, -, e⟩ |
    ⟨offset, x, y, rest, -, -, -, e⟩
  · exact .listed e
  · exact .unfaulted e rfl rfl
  · exact .unfaulted e rfl rfl
  · exact .listed e

theorem execJse_faultEffect (s : State) : FaultEffect .jse s (execJse s) := by
  rcases execJse_cases s with ⟨-, e⟩ | ⟨offset, b, rest, -, e⟩ | ⟨offset, -, -, e⟩ | ⟨offset, -, -, e⟩
  · exact .listed e
  · exact .unfaulted e rfl rfl
  · exact .unfaulted e rfl rfl
  · exact .listed e

theorem execPop_faultEffect (s : State) : FaultEffect .pop s (execPop s) := by
  rcases execPop_cases s with ⟨-, e⟩ | ⟨b, rest, -, e⟩
  · exact .listed e
  · exact .unfaulted e rfl rfl

theorem execSwap_faultEffect (index : BitVec 5) (s : State) : FaultEffect (.swap index) s (execSwap index s) := by
  rcases execSwap_cases index s with ⟨-, e⟩ | ⟨b, rest, x, -, -, e⟩
  · exact .listed e
  · exact .unfaulted e rfl rfl

theorem execLoad_faultEffect (offset : BitVec 6) (s : State) : FaultEffect (.load offset) s (execLoad offset s) := by
  rcases execLoad_cases offset s with ⟨-, e⟩ | ⟨v, -, -, e⟩ | ⟨v, -, -, e⟩
  · exact .listed e
  · exact .listed e
  · exact .unfaulted e rfl rfl

theorem execPush_faultEffect (value : BitVec 7) (s : State) : FaultEffect (.push value) s (execPush value s) := by
  rcases execPush_cases value s with ⟨-, e⟩ | ⟨-, e⟩
  · exact .listed e
  · exact .unfaulted e rfl rfl

theorem exec_faultEffect (i : Instr) (s : State) : FaultEffect i s (exec i s) := by
  cases i with
  | add => exact binaryOperation_faultEffect aluAdd (by decide) s
  | subtract => exact binaryOperation_faultEffect aluSubtract (by decide) s
  | divide => exact execDivide_faultEffect s
  | multiply => exact binaryOperation_faultEffect aluMultiply (by decide) s
  | read => exact execRead_faultEffect s
  | write => exact execWrite_faultEffect s
  | jump => exact execJump_faultEffect s
  | call => exact execCall_faultEffect s
  | ret => exact execRet_faultEffect s
  | cje => exact execCje_faultEffect s
  | jse => exact execJse_faultEffect s
  | pop => exact execPop_faultEffect s
  | swap index => exact execSwap_faultEffect index s
  | load offset => exact execLoad_faultEffect offset s
  | push value => exact execPush_faultEffect value s

/-! ### `ValueOutOfRange` (R119) -/

theorem eq_call_of_valueOutOfRange_mem_raisable {i : Instr} (h : .valueOutOfRange ∈ raisable i) : i = .call := by
  cases i <;> simp [raisable] at h ⊢

/-- The address that call pushes is above 255 when it raises `ValueOutOfRange`. -/
theorem execCall_ip_of_valueOutOfRange {s t : State} (hs : s.fault = none) (h : execCall s = .next t)
    (ht : t.fault = some .valueOutOfRange) : 255 < s.ip := by
  rcases execCall_cases s with ⟨-, e⟩ | ⟨offset, rest, -, hip, e⟩ | ⟨offset, rest, -, -, -, e⟩ |
    ⟨offset, rest, -, -, -, -, e⟩ | ⟨offset, rest, -, -, -, -, e⟩ <;> cases h.symm.trans e
  · cases ht
  · exact hip
  · cases ht
  · cases hs.symm.trans ht
  · cases ht

theorem exec_valueOutOfRange {i : Instr} {s t : State} (hs : s.fault = none) (h : exec i s = .next t)
    (ht : t.fault = some .valueOutOfRange) : i = .call ∧ 255 < s.ip := by
  cases exec_faultEffect i s with
  | unfaulted e fault =>
    cases h.symm.trans e
    cases (fault.trans hs).symm.trans ht
  | listed e hk =>
    cases h.symm.trans e
    cases ht
    obtain rfl := eq_call_of_valueOutOfRange_mem_raisable hk
    exact ⟨rfl, execCall_ip_of_valueOutOfRange hs h rfl⟩
  | overfull e =>
    cases h.symm.trans e
    cases ht

/-! ### The obligations -/

/-- Settles O42: of the kinds listed for each instruction only call's hold it, and only the byte `0x11` is call. -/
theorem valueOutOfRangeOnlyFromHighCall : Obligations.ValueOutOfRangeOnlyFromHighCall := by
  intro s t hs h ht
  rcases step_cases s with ⟨-, e⟩ | ⟨-, -, e⟩ | ⟨b, -, -, -, e⟩ | ⟨b, i, -, hc, hd, e⟩
  · cases h.symm.trans e
    cases hs.symm.trans ht
  · cases h.symm.trans e
    cases hs.symm.trans ht
  · cases h.symm.trans e
    cases ht
  · obtain ⟨rfl, hip⟩ := exec_valueOutOfRange (s := s.withIP (s.ip + 1)) hs (e.symm.trans h) ht
    exact ⟨hc.trans (congrArg some (encode_of_decode hd).symm), Nat.lt_succ_iff.mp hip⟩

/-- Settles O31: the exact entry of `0x20` is tried before the range of swap. -/
theorem popMeaning : Obligations.PopMeaning :=
  ⟨rfl, fun _ => ⟨fun _ _ => execPop_of_cons, finish_stackPop_nil _⟩⟩

/-- Settles O32, by whether the element at the index is there. -/
theorem swapMeaning : Obligations.SwapMeaning := by
  intro index hindex
  have hpos : 1 ≤ index.toNat := wellFormed_swap_iff.mp (bne_iff_ne.mpr hindex)
  exact ⟨decode_encode_swap hpos, fun s => ⟨fun _ _ => execSwap_of_exchange hpos, execSwap_of_beyond⟩⟩

/-- Settles O33, by whether the element at the offset is there, and then by the room for its copy. -/
theorem loadMeaning : Obligations.LoadMeaning := by
  intro offset hoffset
  have hle : offset.toNat ≤ 62 := wellFormed_load_iff.mp (bne_iff_ne.mpr hoffset)
  exact ⟨decode_encode_load hle, fun s => ⟨fun _ => execLoad_of_room, execLoad_of_full, execLoad_of_beyond⟩⟩

/-- Settles O34, by the room on the stack. -/
theorem pushMeaning : Obligations.PushMeaning :=
  fun value => ⟨decode_encode_push value, fun _ => ⟨execPush_of_room value, execPush_of_full value⟩⟩

end Machine
end Sys2Proof
end

section
/-! The statements of spec 45_processor_loop.md: the processor's loop, how an instruction ends in it, and what the
events of the host and the environment do between two steps. -/

namespace Sys2Proof
namespace Machine

/-! ### The loop's step (R126, R127, R131) -/

theorem EndsIn.exists_next {s : State} {P : State → Prop} {o : Host.Outcome State Fault Refusal}
    (h : EndsIn s P o) : ∃ t, o = .next t := by
  cases h with
  | done _ e => exact ⟨_, e⟩
  | raised _ _ e => exact ⟨_, e⟩

theorem step_exists_next (s : State) : ∃ t, step s = .next t := by
  rcases step_progress s with ⟨-, e⟩ | ⟨-, -, e⟩ | ⟨-, -, hend⟩
  · exact ⟨_, e⟩
  · exact ⟨_, e⟩
  · exact hend.exists_next

theorem step_of_not_running {s : State} (hr : s.runState ≠ .running) : step s = .next s := by
  rcases step_cases s with ⟨-, e⟩ | ⟨hr', -⟩ | ⟨-, hr', -⟩ | ⟨-, -, hr', -⟩
  · exact e
  all_goals exact absurd hr' hr

/-- From the end of the code on, the loop terminates normally. -/
theorem step_of_len_le {s : State} (hr : s.runState = .running) (hend : s.code.length ≤ s.ip) :
    step s = .next (s.withRunState .halted) := by
  rcases step_progress s with ⟨hr', -⟩ | ⟨-, -, e⟩ | ⟨-, hlt, -⟩
  · exact absurd hr hr'
  · exact e
  · exact absurd hlt hend.not_gt

/-- No iteration of the loop ends in HALTED. -/
theorem step_not_halted_of_lt {s t : State} (hr : s.runState = .running) (hlt : s.ip < s.code.length)
    (h : step s = .next t) : t.runState ≠ .halted := by
  rcases step_progress s with ⟨hr', -⟩ | ⟨-, hend, -⟩ | ⟨-, -, hend⟩
  · exact absurd hr hr'
  · exact absurd hlt hend.not_gt
  · exact hend.next_state (Q := fun u => u.runState ≠ .halted) h
      (fun u hu => by simp [hu.runState, hr]) (fun k u _ _ => by simp)

theorem Ended.not_running {s : State} (h : Ended s) : s.runState ≠ .running := by
  rcases h with h | h <;> simp [h]

/-! ### The frame of the control transfers (R128, 60_exceptions.md R168) -/

/-- How a control transfer ends: with another stack and another `IP`, or with a fault before `IP` is written. -/
inductive ControlEffect (s : State) (o : Host.Outcome State Fault Refusal) : Prop where
  | done {v : List Byte} {n : Nat} (e : o = .next ((s.withStack v).withIP n))
  | raised {v : List Byte} {k : FaultKind} (e : o = .next (takeFault k (s.withStack v)))

theorem execJump_controlEffect (s : State) : ControlEffect s (execJump s) := by
  rcases execJump_cases s with ⟨-, e⟩ | ⟨offset, rest, -, -, e⟩ | ⟨offset, rest, -, -, e⟩
  · exact .raised (v := s.stack) e
  · exact .done e
  · exact .raised e

theorem execCall_controlEffect (s : State) : ControlEffect s (execCall s) := by
  rcases execCall_cases s with ⟨-, e⟩ | ⟨offset, rest, -, -, e⟩ | ⟨offset, rest, -, -, -, e⟩ |
    ⟨offset, rest, -, -, -, -, e⟩ | ⟨offset, rest, -, -, -, -, e⟩
  · exact .raised (v := s.stack) e
  · exact .raised e
  · exact .raised e
  · exact .done e
  · exact .raised e

theorem execRet_controlEffect (s : State) : ControlEffect s (execRet s) := by
  rcases execRet_cases s with ⟨-, e⟩ | ⟨value, rest, -, -, e⟩ | ⟨value, rest, -, -, e⟩
  · exact .raised (v := s.stack) e
  · exact .done e
  · exact .raised e

theorem execCje_controlEffect (s : State) : ControlEffect s (execCje s) := by
  rcases execCje_cases s with ⟨-, e⟩ | ⟨offset, x, y, rest, -, -, e⟩ | ⟨offset, x, y, rest, -, -, -, e⟩ |
    ⟨offset, x, y, rest, -, -, -, e⟩
  · exact .raised e
  · exact .done (v := rest) (n := s.ip) e
  · exact .done e
  · exact .raised e

theorem execJse_controlEffect (s : State) : ControlEffect s (execJse s) := by
  rcases execJse_cases s with ⟨-, e⟩ | ⟨offset, b, rest, -, e⟩ | ⟨offset, -, -, e⟩ | ⟨offset, -, -, e⟩
  · exact .raised (v := s.stack) e
  · exact .done (v := b :: rest) (n := s.ip) e
  · exact .done e
  · exact .raised e

theorem ControlEffect.frame {s t : State} {o : Host.Outcome State Fault Refusal} (h : ControlEffect s o)
    (ho : o = .next t) :
    t = { s with stack := t.stack, ip := t.ip } ∨
      ∃ k, t = { s with stack := t.stack, fault := some k, runState := .faulted } := by
  cases h with
  | done e => cases ho.symm.trans e; exact .inl rfl
  | @raised _ k e => cases ho.symm.trans e; exact .inr ⟨k, rfl⟩

/-- Settles O36, read off each transfer's cases. -/
theorem controlFrame : Obligations.ControlFrame := by
  intro i s t hi h
  cases i with
  | jump => exact (execJump_controlEffect s).frame h
  | call => exact (execCall_controlEffect s).frame h
  | ret => exact (execRet_controlEffect s).frame h
  | cje => exact (execCje_controlEffect s).frame h
  | jse => exact (execJse_controlEffect s).frame h
  | add | subtract | divide | multiply | read | write | pop | swap | load | push => exact hi.elim

/-! ### `IP` at a fault (60_exceptions.md R168) -/

/-- Each operation's frame says so: where it writes `IP`, it raises no fault. -/
theorem exec_faulted_ip {i : Instr} {s t : State} (hr : s.runState = .running) (h : exec i s = .next t)
    (ht : t.runState = .faulted) : t.ip = s.ip := by
  have unfaulted {u : State} (e : t = u) (hu : u.runState = s.runState) : t.ip = s.ip := by
    subst e
    cases (hr.symm.trans hu.symm).trans ht
  have faulted {u : State} (e : t = u) (hu : u.ip = s.ip) : t.ip = s.ip := e ▸ hu
  cases i with
  | add | subtract | divide | multiply | pop | swap | load | push =>
    rcases stackOnlyFrame _ s t trivial h with e | ⟨k, e⟩
    · exact unfaulted e rfl
    · exact faulted e rfl
  | jump | call | ret | cje | jse =>
    rcases controlFrame _ s t trivial h with e | ⟨k, e⟩
    · exact unfaulted e rfl
    · exact faulted e rfl
  | read =>
    rcases (streamFrame s t).1 h with e | ⟨-, -, e⟩ | ⟨k, e⟩
    · exact unfaulted e rfl
    · exact unfaulted e rfl
    · exact faulted e rfl
  | write =>
    rcases (streamFrame s t).2 h with e | ⟨k, e⟩
    · exact unfaulted e rfl
    · exact faulted e rfl

/-! ### The start of a run (R125, R131) -/

/-- No run has started (R131). -/
abbrev Idle (s : State) : Prop := s.runState = .unloaded ∨ s.runState = .ready

theorem hostRun_of_idle {s : State} (h : Idle s) : hostRun s = startRun s := by
  rcases h with hr | hr <;> simp [hostRun, hr]

theorem hostRun_of_started {s : State} (h : s.runState = .running ∨ Ended s) : hostRun s = s := by
  rcases h with hr | hr | hr <;> simp [hostRun, hr]

theorem idle_or_started (s : State) : Idle s ∨ s.runState = .running ∨ Ended s := by
  cases h : s.runState <;> simp [Idle, Ended, h]

theorem startRun_of_empty {s : State} (h : s.code = []) : startRun s = takeFault .noCodeLoaded s := by
  simp [startRun, h]

theorem startRun_of_nonempty {s : State} (h : s.code ≠ []) : startRun s = s.withRunState .running := by
  simp [startRun, h]

theorem Inv.idle {s : State} (h : Inv s) (hidle : Idle s) : s.ip = 0 ∧ s.fault = none := by
  have agrees : RunStateAgrees s := h.run_state
  rcases hidle with hr | hr <;> simp only [RunStateAgrees, hr] at agrees
  all_goals
    obtain ⟨-, hip, -, -, hfault⟩ := agrees
    exact ⟨hip, hfault⟩

/-! ### What an event other than reset can do (R131) -/

/-- An event changes the input stream only, is the first load of a fresh machine, or starts a run. -/
inductive EventEffect (s : State) : State → Prop where
  | streams (input : List Byte) (ended : Bool) : EventEffect s { s with input := input, inputEnded := ended }
  | loaded {bytes : List Byte} (hr : s.runState = .unloaded)
      (hfits : Config.admits s.cfg.codeMax bytes.length = true) :
      EventEffect s { s with code := bytes, codeSet := true, runState := .ready }
  | noCode (hidle : Idle s) (hcode : s.code = []) : EventEffect s (takeFault .noCodeLoaded s)
  | started (hidle : Idle s) (hcode : s.code ≠ []) : EventEffect s (s.withRunState .running)

theorem EventEffect.unchanged (s : State) : EventEffect s s := .streams s.input s.inputEnded

theorem acceptLoad_effect {bytes : List Byte} {s t : State} {r : HostReply} (hr : s.runState = .unloaded)
    (h : acceptLoad bytes s = .next (r, t)) : EventEffect s t := by
  unfold acceptLoad at h
  cases hset : s.codeSet with
  | true =>
    rw [setCode_of_set bytes hset] at h
    cases h
    exact .unchanged s
  | false =>
    rw [setCode_of_unset bytes hset] at h
    by_cases hfits : Config.admits s.cfg.codeMax bytes.length = true
    · simp only [hfits, if_true] at h
      cases h
      exact .loaded hr hfits
    · simp [hfits] at h

theorem hostLoad_effect {bytes : List Byte} {s t : State} {r : HostReply} (h : hostLoad bytes s = .next (r, t)) :
    EventEffect s t := by
  cases hr : s.runState <;> simp only [hostLoad, hr] at h
  case unloaded => exact acceptLoad_effect hr h
  case ready | running => cases h; exact .unchanged s
  case halted | faulted => split at h <;> cases h; exact .unchanged s

theorem hostRun_effect (s : State) : EventEffect s (hostRun s) := by
  rcases idle_or_started s with hidle | hstarted
  · rw [hostRun_of_idle hidle]
    by_cases hcode : s.code = []
    · rw [startRun_of_empty hcode]
      exact .noCode hidle hcode
    · rw [startRun_of_nonempty hcode]
      exact .started hidle hcode
  · rw [hostRun_of_started hstarted]
    exact .unchanged s

theorem hostEvent_effect {e : HostEvent} {r : HostReply} {s t : State} (he : e ≠ .reset)
    (h : hostEvent e s = .next (r, t)) : EventEffect s t := by
  cases e with
  | load bytes => exact hostLoad_effect h
  | run => cases h; exact hostRun_effect s
  | reset => exact absurd rfl he
  | inputByte b =>
    simp only [hostEvent, hostInput] at h
    split at h <;> cases h
    exact .streams (s.input ++ [b]) s.inputEnded
  | inputEnd => cases h; exact .streams s.input true

theorem Ended.not_idle {s : State} (h : Ended s) : ¬ Idle s := by
  rcases h with h | h <;> simp [Idle, h]

/-- Of what an event can do, an ended machine leaves only the input stream. -/
theorem EventEffect.ended_frame {s t : State} (h : EventEffect s t) (hend : Ended s) :
    t = { s with input := t.input, inputEnded := t.inputEnded } := by
  cases h with
  | streams input ended => rfl
  | loaded hr _ => exact absurd (.inl hr) hend.not_idle
  | noCode hidle _ => exact absurd hidle hend.not_idle
  | started hidle _ => exact absurd hidle hend.not_idle

/-! ### The events keep the invariant -/

/-- No clause of the invariant speaks of the input stream. -/
theorem Inv.streams {s : State} (h : Inv s) (input : List Byte) (ended : Bool) :
    Inv { s with input := input, inputEnded := ended } :=
  ⟨h.ip_le_len, h.unset_empty, h.stack_fits, h.code_fits, h.run_state⟩

theorem Inv.loaded {s : State} {bytes : List Byte} (h : Inv s) (hr : s.runState = .unloaded)
    (hfits : Config.admits s.cfg.codeMax bytes.length = true) :
    Inv { s with code := bytes, codeSet := true, runState := .ready } := by
  have agrees : RunStateAgrees s := h.run_state
  simp only [RunStateAgrees, hr] at agrees
  obtain ⟨-, hip, hrest⟩ := agrees
  exact ⟨hip.trans_le bytes.length.zero_le, nofun, h.stack_fits, hfits, rfl, hip, hrest⟩

theorem Inv.noCode {s : State} (h : Inv s) (hcode : s.code = []) : Inv (takeFault .noCodeLoaded s) := by
  have hlen : s.len = 0 := congrArg List.length hcode
  have agrees : RunStateAgrees (takeFault .noCodeLoaded s) :=
    ⟨.noCodeLoaded, rfl, nofun, iff_of_true rfl hlen, fun _ => hlen, nofun⟩
  exact ⟨h.ip_le_len, h.unset_empty, h.stack_fits, h.code_fits, agrees⟩

theorem Inv.started {s : State} (h : Inv s) (hidle : Idle s) (hcode : s.code ≠ []) :
    Inv (s.withRunState .running) := by
  have hset : s.codeSet = true := eq_true_of_ne_false fun hunset => hcode (h.unset_empty hunset)
  exact ⟨h.ip_le_len, h.unset_empty, h.stack_fits, h.code_fits, hset, List.length_pos_iff.mpr hcode,
    (h.idle hidle).2⟩

theorem EventEffect.inv {s t : State} (h : EventEffect s t) (hs : Inv s) : Inv t := by
  cases h with
  | streams input ended => exact hs.streams input ended
  | loaded hr hfits => exact hs.loaded hr hfits
  | noCode _ hcode => exact hs.noCode hcode
  | started hidle hcode => exact hs.started hidle hcode

/-! ### The obligations -/

/-- Settles O7: only the false guard halts, and within the invariant it is false at `IP = LEN` alone. -/
theorem loopEndsExactlyAtLen : Obligations.LoopEndsExactlyAtLen := by
  intro s t hinv hr h
  rcases hinv.ip_le_len.lt_or_eq with hlt | heq
  · exact ⟨iff_of_false (step_not_halted_of_lt hr hlt h) hlt.ne, fun heq => absurd heq hlt.ne⟩
  · cases h.symm.trans (step_of_len_le hr heq.ge)
    exact ⟨iff_of_true rfl heq, fun _ => rfl⟩

/-- Settles O9: standing still, terminating and the end of every instruction are all next states. -/
theorem nothingStopsTheStep : Obligations.NothingStopsTheStep :=
  ⟨step_exists_next, fun i s => (exec_progress i s).exists_next⟩

/-- Settles O43: the fetch increment is made before the fault, and no instruction that faults writes `IP`. -/
theorem faultLeavesIncrementedIP : Obligations.FaultLeavesIncrementedIP := by
  intro s t hr h ht
  rcases step_cases s with ⟨hr', -⟩ | ⟨-, -, e⟩ | ⟨b, -, -, -, e⟩ | ⟨b, i, -, -, -, e⟩
  · exact absurd hr hr'
  · cases h.symm.trans e
    cases ht
  · cases h.symm.trans e
    rfl
  · exact exec_faulted_ip (s := s.withIP (s.ip + 1)) hr (e.symm.trans h) ht

/-- Settles O44: a load that is answered is refused, a run has no effect, and the other events are the stream's. -/
theorem endedUntilReset : Obligations.EndedUntilReset :=
  fun _ hend => ⟨step_of_not_running hend.not_running,
    fun _ _ _ he h => (hostEvent_effect he h).ended_frame hend⟩

/-- Settles O59, by what each event can do. -/
theorem eventsKeepInvariant : Obligations.EventsKeepInvariant := by
  intro e r s t hs h
  rcases eq_or_ne e .reset with rfl | he
  · exact resetMeetsInvariant.2 s t r h
  · exact (hostEvent_effect he h).inv hs

/-- Settles O6, by whether the byte fetched decodes. -/
theorem stepRunsDecodedInstruction : Obligations.StepRunsDecodedInstruction := by
  intro s hr hlt
  have hc : codeAt s s.ip = some s.code[s.ip] := List.getElem?_eq_getElem hlt
  exact ⟨fun i hd => step_currentInstr (currentInstr_eq_some.mpr ⟨hr, _, hc, hd⟩), step_of_decode_error hr hc⟩

/-- Settles O8: only a RUNNING machine's step does anything. -/
theorem stepLeavesIdleAndEndedAlone : Obligations.StepLeavesIdleAndEndedAlone :=
  fun _ => step_of_not_running

/-- Settles O54, by whether a run has started and whether there is code. -/
theorem runInterface : Obligations.RunInterface := by
  intro s hinv
  have run {u : State} (h : hostRun s = u) : hostEvent .run s = .next (.done, u) := by rw [← h]; rfl
  exact ⟨fun hidle hcode => run ((hostRun_of_idle hidle).trans (startRun_of_empty hcode)),
    fun hidle hcode => ⟨(hinv.idle hidle).1, run ((hostRun_of_idle hidle).trans (startRun_of_nonempty hcode))⟩,
    fun hstarted => run (hostRun_of_started hstarted)⟩

end Machine
end Sys2Proof
end

section
/-! The statements of spec 46_external_interfaces.md: what the host is answered to a load, what it reads of a run that
has ended, and the handshakes of the ports in one cycle. -/

namespace Sys2Proof
namespace Machine

/-! ### The load interface (R141, 45_processor_loop.md R131) -/

theorem Inv.codeSet_of_unloaded {s : State} (h : Inv s) (hr : s.runState = .unloaded) : s.codeSet = false := by
  have agrees : RunStateAgrees s := h.run_state
  simp only [RunStateAgrees, hr] at agrees
  exact agrees.1

theorem hostEvent_load_tooLong {bytes : List Byte} {s : State} (hr : s.runState = .unloaded)
    (hs : s.codeSet = false) (hlong : Config.admits s.cfg.codeMax bytes.length = false) :
    hostEvent (.load bytes) s = .refused .codeTooLong := by
  simp [hostEvent, hostLoad, hr, acceptLoad, setCode_of_unset bytes hs, hlong]

theorem hostEvent_load_afterFailedRun (bytes : List Byte) {s : State} (hr : s.runState = .faulted)
    (hs : s.codeSet = false) : hostEvent (.load bytes) s = .refused .loadAfterFailedRun := by
  simp [hostEvent, hostLoad, hr, hs]

/-! ### The outcome of a run (R142, 45_processor_loop.md R132) -/

theorem Inv.ip_fault_of_halted {s : State} (h : Inv s) (hr : s.runState = .halted) :
    s.ip = s.code.length ∧ s.fault = none := by
  have agrees : RunStateAgrees s := h.run_state
  simp only [RunStateAgrees, hr] at agrees
  obtain ⟨-, -, hip, hfault⟩ := agrees
  exact ⟨hip, hfault⟩

theorem Inv.exists_fault {s : State} (h : Inv s) (hr : s.runState = .faulted) : ∃ k, s.fault = some k := by
  have agrees : RunStateAgrees s := h.run_state
  simp only [RunStateAgrees, hr] at agrees
  obtain ⟨k, hk, -⟩ := agrees
  exact ⟨k, hk⟩

theorem runOutcome_of_halted {s : State} (hr : s.runState = .halted) : runOutcome s = some .terminated := by
  simp [runOutcome, hr]

theorem runOutcome_of_faulted {s : State} {k : FaultKind} (hr : s.runState = .faulted) (hk : s.fault = some k) :
    runOutcome s = some (.failed k) := by
  simp [runOutcome, hr, hk]

theorem runOutcome_of_not_ended {s : State} (h : ¬ Ended s) : runOutcome s = none := by
  rcases idle_or_started s with (hr | hr) | hr | hend
  · simp [runOutcome, hr]
  · simp [runOutcome, hr]
  · simp [runOutcome, hr]
  · exact absurd hend h

/-! ### The final-state view of a machine that is not RUNNING (R146, R147) -/

section
variable {s : State} (n : Nat) (h : s.runState ≠ .running)
include h

theorem observeRunState_of_not_running : observeRunState n s = runStateCode s.runState := if_neg h

theorem observeFault_of_not_running : observeFault n s = faultCode s.fault := if_neg h

theorem observeIP_of_not_running : observeIP n s = s.ip := if_neg h

theorem observeSize_of_not_running : observeSize n s = s.stack.length := if_neg h

theorem observeElement_of_not_running {i : Nat} (hi : i < s.stack.length) :
    observeElement n i s = .ok s.stack[i] := by
  simp [observeElement, h, hi]

end

theorem codeView_of_lt {s : State} {a : Nat} (h : a < s.code.length) : codeView a s = .ok s.code[a] := by
  simp [codeView, codeAt, h]

theorem runStateCode_eq_three_iff (r : RunState) : runStateCode r = 3 ↔ r = .halted := by
  cases r <;> decide

theorem runStateCode_eq_four_iff (r : RunState) : runStateCode r = 4 ↔ r = .faulted := by
  cases r <;> decide

theorem faultCode_eq_zero_iff (f : Option FaultKind) : faultCode f = 0 ↔ f = none := by
  rcases f with _ | k
  · decide
  · cases k <;> decide

/-- The table of 60_exceptions.md R155 and the encoder of `FAULT` agree. -/
theorem faultCode_of_mem_faultNumbers {k : FaultKind} {code : BitVec 4} (h : (k, code) ∈ faultNumbers) :
    faultCode (some k) = code := by
  have every_row : ∀ row ∈ faultNumbers, faultCode (some row.1) = row.2 := by decide
  exact every_row _ h

/-! ### What a step does to the streams, by the current instruction (42_io.md R92) -/

theorem execRead_input_tail {s t : State} (h : execRead s = .next t) : t.input = s.input.tail := by
  rcases execRead_cases s with ⟨v, rest, hin, -, e⟩ | ⟨v, rest, hin, -, e⟩ | ⟨hin, -, e⟩ | ⟨hin, -, e⟩ <;>
    cases h.symm.trans e <;> simp [hin]

/-- Without a current instruction a step stands still, halts, or faults on an illegal byte. -/
theorem step_streams_of_no_instr {s t : State} (hi : currentInstr s = none) (h : step s = .next t) :
    t.input = s.input ∧ t.output = s.output := by
  rcases step_cases s with ⟨-, e⟩ | ⟨-, -, e⟩ | ⟨b, -, -, -, e⟩ | ⟨b, i, hr, hc, hd, -⟩
  · cases h.symm.trans e; exact ⟨rfl, rfl⟩
  · cases h.symm.trans e; exact ⟨rfl, rfl⟩
  · cases h.symm.trans e; exact ⟨rfl, rfl⟩
  · simp [currentInstr_eq_some.mpr ⟨hr, b, hc, hd⟩] at hi

theorem step_input_at_read {s t : State} (hi : currentInstr s = some .read) (h : step s = .next t) :
    t.input = s.input.tail :=
  execRead_input_tail (s := s.withIP (s.ip + 1)) ((step_currentInstr hi).symm.trans h)

theorem step_input_elsewhere {s t : State} (hi : currentInstr s ≠ some .read) (h : step s = .next t) :
    t.input = s.input := by
  cases hc : currentInstr s with
  | none => exact (step_streams_of_no_instr hc h).1
  | some i =>
    have hread : i ≠ .read := fun e => hi (e ▸ hc)
    exact exec_keeps_input (s := s.withIP (s.ip + 1)) hread ((step_currentInstr hc).symm.trans h)

theorem step_output_at_write {s t : State} (hi : currentInstr s = some .write) (h : step s = .next t) :
    t.output = s.output ++ s.stack.head?.toList := by
  have hexec : execWrite (s.withIP (s.ip + 1)) = .next t := (step_currentInstr hi).symm.trans h
  rcases execWrite_cases (s.withIP (s.ip + 1)) with ⟨hs, e⟩ | ⟨v, rest, hs, e⟩ <;>
    cases hexec.symm.trans e <;> simp [show s.stack = _ from hs]

theorem step_output_elsewhere {s t : State} (hi : currentInstr s ≠ some .write) (h : step s = .next t) :
    t.output = s.output := by
  cases hc : currentInstr s with
  | none => exact (step_streams_of_no_instr hc h).2
  | some i =>
    have hwrite : i ≠ .write := fun e => hi (e ▸ hc)
    exact exec_keeps_output (s := s.withIP (s.ip + 1)) hwrite ((step_currentInstr hc).symm.trans h)

/-! ### The step at the ports (R148, 42_io.md R93) -/

theorem portInReady_iff {p : PortInputs} {s : State} :
    portInReady p s = true ↔ p.rst = false ∧ currentInstr s = some .read := by
  simp [portInReady]

theorem portOutValid_iff {p : PortInputs} {s : State} :
    portOutValid p s = true ↔ ∃ v, portOut p s = some v :=
  Option.isSome_iff_exists

theorem portOutValid_eq_false_iff {p : PortInputs} {s : State} :
    portOutValid p s = false ↔ portOut p s = none := by
  simp [portOutValid]

/-- The value a write pops is the one the pins present. -/
theorem portOut_at_write {p : PortInputs} {s : State} (hrst : p.rst = false) (hi : currentInstr s = some .write) :
    portOut p s = s.stack.head? :=
  if_pos ⟨hrst, hi⟩

theorem portStep_held {p : PortInputs} {s t : State} {v : Byte} (hv : portOut p s = some v)
    (hready : p.outReady = false) (h : portStep p s = .next t) : t = offerInput p s := by
  rcases portStep_cases p s with ⟨-, -, e⟩ | ⟨hvalid | hready', -⟩
  · cases h.symm.trans e; rfl
  · simp [portOutValid, hv] at hvalid
  · simp [hready] at hready'

/-- The bytes the step leaves on the stream: the offered one, unless a read takes it. -/
theorem portStep_input {p : PortInputs} {s t : State} (hrst : p.rst = false) (h : portStep p s = .next t) :
    t.input = if p.inValid && !portInReady p s then [p.inData] else [] := by
  by_cases hread : currentInstr s = some .read
  · have hready : portInReady p s = true := portInReady_iff.mpr ⟨hrst, hread⟩
    have taken : t.input = (offeredInput p).tail := by
      rcases portStep_cases p s with ⟨hvalid, -, -⟩ | ⟨-, e⟩
      · obtain ⟨v, hv⟩ := portOutValid_iff.mp hvalid
        obtain ⟨-, hwrite, -⟩ := portOut_eq_some.mp hv
        cases hread.symm.trans hwrite
      · exact step_input_at_read (s := offerInput p s) hread (e.symm.trans h)
    rw [taken, hready, offeredInput]
    split <;> simp
  · have hready : portInReady p s = false := by
      rw [← Bool.not_eq_true, portInReady_iff]
      exact fun ⟨_, hread'⟩ => hread hread'
    have left : t.input = offeredInput p := by
      rcases portStep_cases p s with ⟨-, -, e⟩ | ⟨-, e⟩
      · cases h.symm.trans e; rfl
      · exact step_input_elsewhere (s := offerInput p s) hread (e.symm.trans h)
    simp [left, hready, offeredInput]

/-- Unless a presented value is held back, the step writes what the pins present. -/
theorem portStep_output {p : PortInputs} {s t : State} (hrst : p.rst = false)
    (haccept : portOut p s = none ∨ p.outReady = true) (h : portStep p s = .next t) :
    t.output = s.output ++ (portOut p s).toList := by
  have hstep : step (offerInput p s) = .next t := by
    rcases portStep_cases p s with ⟨hvalid, hready, -⟩ | ⟨-, e⟩
    · obtain ⟨v, hv⟩ := portOutValid_iff.mp hvalid
      simp [hv, hready] at haccept
    · exact e.symm.trans h
  by_cases hwrite : currentInstr s = some .write
  · rw [portOut_at_write hrst hwrite]
    exact step_output_at_write (s := offerInput p s) hwrite hstep
  · have silent : portOut p s = none := if_neg fun ⟨_, hwrite'⟩ => hwrite hwrite'
    rw [silent, Option.toList_none, List.append_nil]
    exact step_output_elsewhere (s := offerInput p s) hwrite hstep

/-! ### The load port in a cycle (R148) -/

theorem takeBeat_burst {beat : LoadBeat} {q b : PortState} (hempty : beat.empty = false)
    (h : takeBeat beat q = .next b) : b.burst = if beat.last then [] else q.burst ++ [beat.data] := by
  rcases takeBeat_cases beat q with ⟨he, -⟩ | ⟨he, -⟩ | ⟨-, hlast, e⟩ | ⟨-, hlast, e⟩
  · simp [hempty] at he
  · simp [hempty] at he
  · rw [hlast, if_pos rfl]
    exact (portLoad_next (e.symm.trans h)).1
  · cases h.symm.trans e
    simp [hlast]

theorem portBeat_burst_of_taken {p : PortInputs} {q b : PortState} (hvalid : p.load.valid = true)
    (hready : portLoadReady p = true) (hempty : p.load.empty = false) (h : portBeat p q = .next b) :
    b.burst = if p.load.last then [] else q.burst ++ [p.load.data] := by
  rcases portBeat_cases p q with ⟨hno, -⟩ | ⟨-, e⟩
  · simp [hvalid, hready] at hno
  · exact takeBeat_burst hempty (e.symm.trans h)

theorem portBeat_of_not_taken {p : PortInputs} {q b : PortState}
    (hno : p.load.valid = false ∨ portLoadReady p = false) (h : portBeat p q = .next b) : b = q := by
  rcases portBeat_cases p q with ⟨-, e⟩ | ⟨htaken, -⟩
  · cases h.symm.trans e; rfl
  · rcases hno with hno | hno <;> simp [hno] at htaken

/-! ### A cycle without reset (R148, log 14) -/

/-- What the load beat and the `run` pin leave of the step's result: its streams, and a run in progress. -/
theorem portCycle_step {p : PortInputs} {q q' : PortState} (hrst : p.rst = false)
    (h : portCycle p q = .next q') :
    ∃ s, portStep p q.core = .next s ∧ q'.core.input = s.input ∧ q'.core.output = s.output ∧
      (s.runState = .running → q'.core = s) := by
  rcases portCycle_cases h with ⟨hrst', -⟩ | ⟨-, s, b, hs, hb, rfl⟩
  · simp [hrst] at hrst'
  · obtain ⟨hin, hout, hrun⟩ := portBeat_next hb
    obtain ⟨hin', hout', hrun'⟩ := portRun_frame p b.core
    refine ⟨s, hs, hin'.trans hin, hout'.trans hout, fun hr => ?_⟩
    have core : b.core = s := hrun hr
    rw [← core] at hr
    exact (hrun' hr).trans core

/-- Only the load beat writes what the load port holds. -/
theorem portCycle_beat {p : PortInputs} {q q' : PortState} (hrst : p.rst = false)
    (h : portCycle p q = .next q') :
    ∃ s b, portBeat p { q with core := s } = .next b ∧ q'.burst = b.burst ∧ q'.loadErr = b.loadErr := by
  rcases portCycle_cases h with ⟨hrst', -⟩ | ⟨-, s, b, -, hb, rfl⟩
  · simp [hrst] at hrst'
  · exact ⟨s, b, hb, rfl, rfl⟩

/-- A cycle under `rst` is the reset alone (70_reset_and_hazards.md R181). -/
theorem portCycle_reset {p : PortInputs} {q q' : PortState} (hrst : p.rst = true)
    (h : portCycle p q = .next q') :
    q' = { core := offerInput p (hostReset q.core), burst := [], loadErr := false } := by
  rcases portCycle_cases h with ⟨-, e⟩ | ⟨hrst', -⟩
  · exact e
  · simp [hrst] at hrst'

/-! ### The handshakes of a cycle (R148) -/

section
variable {p : PortInputs} {q q' : PortState} (h : portCycle p q = .next q')
include h

theorem portCycle_input :
    q'.core.input = if p.inValid && !portInReady p q.core then [p.inData] else [] := by
  cases hrst : p.rst with
  | true =>
    cases portCycle_reset hrst h
    simp [offeredInput, portInReady, hrst]
  | false =>
    obtain ⟨s, hs, hin, -, -⟩ := portCycle_step hrst h
    exact hin.trans (portStep_input hrst hs)

theorem portCycle_output_of_accepted {v : Byte} (hv : portOut p q.core = some v) (hready : p.outReady = true) :
    q'.core.output = q.core.output ++ [v] := by
  obtain ⟨hrst, -, -⟩ := portOut_eq_some.mp hv
  obtain ⟨s, hs, -, hout, -⟩ := portCycle_step hrst h
  rw [hout, portStep_output hrst (.inr hready) hs, hv, Option.toList_some]

/-- A machine that presents a value is RUNNING, so neither the load beat nor `run` touches it. -/
theorem portCycle_core_of_held {v : Byte} (hv : portOut p q.core = some v) (hready : p.outReady = false) :
    q'.core = offerInput p q.core := by
  obtain ⟨hrst, hwrite, -⟩ := portOut_eq_some.mp hv
  obtain ⟨hr, -⟩ := currentInstr_eq_some.mp hwrite
  obtain ⟨s, hs, -, -, hrun⟩ := portCycle_step hrst h
  cases portStep_held hv hready hs
  exact hrun hr

theorem portCycle_output_of_silent (hv : portOut p q.core = none) :
    q'.core.output = if p.rst then [] else q.core.output := by
  cases hrst : p.rst with
  | true =>
    cases portCycle_reset hrst h
    rfl
  | false =>
    obtain ⟨s, hs, -, hout, -⟩ := portCycle_step hrst h
    rw [hout, portStep_output hrst (.inl hv) hs, hv, Option.toList_none, List.append_nil]
    rfl

theorem portCycle_burst_of_taken (hvalid : p.load.valid = true) (hready : portLoadReady p = true)
    (hempty : p.load.empty = false) :
    q'.burst = if p.load.last then [] else q.burst ++ [p.load.data] := by
  have hrst : p.rst = false := by simpa [portLoadReady] using hready
  obtain ⟨s, b, hb, hburst, -⟩ := portCycle_beat hrst h
  exact hburst.trans (portBeat_burst_of_taken (q := { q with core := s }) hvalid hready hempty hb)

theorem portCycle_loadPort_of_not_taken (hno : p.load.valid = false ∨ portLoadReady p = false) :
    q'.burst = (if p.rst then [] else q.burst) ∧ q'.loadErr = (!p.rst && q.loadErr) := by
  cases hrst : p.rst with
  | true =>
    cases portCycle_reset hrst h
    exact ⟨rfl, rfl⟩
  | false =>
    obtain ⟨s, b, hb, hburst, herr⟩ := portCycle_beat hrst h
    cases portBeat_of_not_taken hno hb
    exact ⟨hburst, herr⟩

end

/-! ### The obligations -/

/-- Settles O60: one lemma for each handshake, between the pins of the cycle. -/
theorem portHandshakes : Obligations.PortHandshakes := by
  intro n p q q' h
  exact ⟨portCycle_input h, rfl, fun _ => portCycle_output_of_accepted h, fun _ => portCycle_core_of_held h,
    fun hsilent => portCycle_output_of_silent h (portOutValid_eq_false_iff.mp hsilent),
    portCycle_burst_of_taken h, portCycle_loadPort_of_not_taken h⟩

/-- Settles O53, by the run state and whether the code is loaded. -/
theorem loadInterface : Obligations.LoadInterface := by
  intro bytes s hinv
  exact ⟨fun hr => hostEvent_load_unloaded hr (hinv.codeSet_of_unloaded hr),
    fun hr => hostEvent_load_tooLong hr (hinv.codeSet_of_unloaded hr),
    hostEvent_load_of_set bytes, hostEvent_load_afterFailedRun bytes⟩

/-- Settles O55: the invariant ties HALTED to `IP = LEN` and no fault, and FAULTED to a fault. -/
theorem endedRunHasOutcome : Obligations.EndedRunHasOutcome := by
  refine fun s hinv => ⟨fun hend => ?_, runOutcome_of_not_ended⟩
  rcases hend with hr | hr
  · obtain ⟨hip, hfault⟩ := hinv.ip_fault_of_halted hr
    exact ⟨.terminated, runOutcome_of_halted hr, iff_of_true rfl hfault, fun _ => hip, nofun⟩
  · obtain ⟨k, hk⟩ := hinv.exists_fault hr
    refine ⟨.failed k, runOutcome_of_faulted hr hk, iff_of_false nofun (by simp [hk]), nofun, ?_⟩
    rintro _ ⟨⟩
    exact hk

/-- Settles O56: a run that has ended is not RUNNING, so that every read shows the state. -/
theorem observationAfterTheRun : Obligations.ObservationAfterTheRun := by
  intro s n hend
  have hr : s.runState ≠ .running := hend.not_running
  rw [observeRunState_of_not_running n hr, observeFault_of_not_running n hr]
  refine ⟨runStateCode_eq_three_iff _, runStateCode_eq_four_iff _, faultCode_eq_zero_iff _, fun k code hmem hk => ?_,
    observeIP_of_not_running n hr, observeSize_of_not_running n hr,
    fun i hi => observeElement_of_not_running n hr hi, fun a ha => codeView_of_lt ha⟩
  rw [hk]
  exact faultCode_of_mem_faultNumbers hmem

end Machine
end Sys2Proof
end

section
/-! The statements of spec 60_exceptions.md: which fault kinds an instruction can raise. -/

namespace Sys2Proof
namespace Machine

/-! ### The kind an instruction of a run raises (R155, R164) -/

/-- A sub-step that raises nothing leaves the machine RUNNING, so a fault entry is one of the run's. -/
theorem raisedInRun_of_exec {i : Instr} {s t : State} {k : FaultKind} (hr : s.runState = .running)
    (h : exec i s = .next (takeFault k t)) : RaisedInRun s k := by
  cases exec_progress i s with
  | done hp e =>
    cases h.symm.trans e
    cases hp.runState.trans hr
  | raised _ hk e =>
    have same_kind : some k = some _ := congrArg State.fault (Host.Outcome.next.inj (h.symm.trans e))
    cases same_kind
    exact hk

/-! ### The obligations -/

/-- Settles O41, by how the instruction ends: within `STACK_MAX` no push after a pop overflows, so that every kind
raised is a listed one. -/
theorem onlyListedKindsRaised : Obligations.OnlyListedKindsRaised := by
  intro i s t hfits hr h
  cases exec_faultEffect i s with
  | unfaulted e fault runState =>
    cases h.symm.trans e
    exact .inl ⟨runState.trans hr, fault⟩
  | @listed k _ e hk =>
    obtain ⟨-, -, finite_of_overflow⟩ := raisedInRun_of_exec hr e
    cases h.symm.trans e
    exact .inr ⟨rfl, k, hk, rfl, finite_of_overflow⟩
  | overfull _ hs => exact absurd hfits hs

end Machine
end Sys2Proof
end

section
/-! The statements of spec 70_reset_and_hazards.md: when a RUNNING machine stands still, and what reset does. -/

namespace Sys2Proof
namespace Machine

/-! ### What an instruction that does not wait changes (R93, R105, R189) -/

/-- Only ret and a waiting read put `IP` below the post-increment value. -/
theorem ip_le_of_exec {i : Instr} {s t : State} (hret : i ≠ .ret) (h : exec i s = .next t) :
    s.ip ≤ t.ip ∨ i = .read ∧ s.input = [] ∧ s.inputEnded = false := by
  cases i with
  | add | subtract | divide | multiply | pop | swap | load | push =>
    rcases stackOnlyFrame _ s t trivial h with e | ⟨k, e⟩ <;> exact .inl (by rw [e])
  | jump => exact .inl (execJump_forward h).1
  | call => exact .inl (execCall_forward h).1
  | cje => exact .inl (execCje_forward h).1
  | jse => exact .inl (execJse_forward h).1
  | ret => exact absurd rfl hret
  | read =>
    rcases (streamFrame s t).1 h with e | ⟨hin, hend, -⟩ | ⟨k, e⟩
    · exact .inl (by rw [e])
    · exact .inr ⟨rfl, hin, hend⟩
    · exact .inl (by rw [e])
  | write =>
    rcases (streamFrame s t).2 h with e | ⟨k, e⟩ <;> exact .inl (by rw [e])

/-- ret may put `IP` back at its own address, but then it has popped that address. -/
theorem execRet_faults_or_pops {s t : State} (h : execRet s = .next t) :
    t.runState = .faulted ∨ t.stack.length < s.stack.length := by
  rcases execRet_cases s with ⟨-, e⟩ | ⟨value, rest, hs, -, e⟩ | ⟨value, rest, -, -, e⟩ <;>
    cases h.symm.trans e
  · exact .inl rfl
  · exact .inr (by simp [hs])
  · exact .inl rfl

/-! ### The waiting read (R93) -/

theorem readWaiting_iff {s : State} :
    readWaiting s = true ↔ currentInstr s = some .read ∧ s.input = [] ∧ s.inputEnded = false := by
  simp [readWaiting, and_assoc]

theorem step_of_readWaiting {s : State} (h : readWaiting s = true) : step s = .next s := by
  obtain ⟨hi, hin, hend⟩ := readWaiting_iff.mp h
  calc step s
      = execRead (s.withIP (s.ip + 1)) := step_currentInstr hi
    _ = .next (awaitStream (s.withIP (s.ip + 1))) := execRead_of_waiting (s := s.withIP (s.ip + 1)) hin hend
    _ = .next s := by rw [awaitStream_withIP_succ, State.withIP_self]

/-- An instruction of a run that gives back the state it was fetched in is a waiting read. -/
theorem eq_read_of_exec_fetched {i : Instr} {s : State} (hr : s.runState = .running)
    (h : exec i (s.withIP (s.ip + 1)) = .next s) : i = .read ∧ s.input = [] ∧ s.inputEnded = false := by
  by_cases hret : i = .ret
  · subst hret
    rcases execRet_faults_or_pops h with hfaulted | hpopped
    · cases hr.symm.trans hfaulted
    · exact absurd hpopped (lt_irrefl s.stack.length)
  · exact (ip_le_of_exec hret h).resolve_left (Nat.not_succ_le_self s.ip)

theorem readWaiting_of_step_self {s : State} (hr : s.runState = .running) (h : step s = .next s) :
    readWaiting s = true := by
  rcases step_cases s with ⟨hr', -⟩ | ⟨-, -, e⟩ | ⟨b, -, -, -, e⟩ | ⟨b, i, -, hc, hd, e⟩
  · exact absurd hr hr'
  · have halted : s.runState = .halted := congrArg State.runState (Host.Outcome.next.inj (h.symm.trans e))
    cases hr.symm.trans halted
  · have faulted : s.runState = .faulted := congrArg State.runState (Host.Outcome.next.inj (h.symm.trans e))
    cases hr.symm.trans faulted
  · obtain ⟨rfl, hin, hend⟩ := eq_read_of_exec_fetched hr (e.symm.trans h)
    exact readWaiting_iff.mpr ⟨currentInstr_eq_some.mpr ⟨hr, b, hc, hd⟩, hin, hend⟩

/-! ### The obligations -/

/-- Settles O10: every other step moves `IP` on, pops ret's address, or changes the run state. -/
theorem runningProgressesUnlessWaiting : Obligations.RunningProgressesUnlessWaiting :=
  fun _ hr => ⟨readWaiting_of_step_self hr, step_of_readWaiting⟩

/-- Settles O51: the reset event answers `hostReset`, field by field. -/
theorem resetEvent : Obligations.ResetEvent :=
  fun s => ⟨hostReset s, rfl, rfl, rfl, rfl, rfl, rfl, rfl, rfl, rfl, rfl, rfl⟩

end Machine
end Sys2Proof
end
